-- ==== Sys2Proof/Word.lean ====
section
/-! DEFINITION. The machine word (spec 00_scope.md R5, R7): sixteen unsigned bits. -/

namespace Sys2Proof

/-- A word: a memory cell, a register, a stack entry, an opcode word or an operand word (R5, R9). -/
abbrev Word := BitVec 16

/-- A byte of the program file, outside the core (R31). -/
abbrev Byte := BitVec 8

end Sys2Proof
end

