-- ==== Sys2Proof/Config.lean ====
section
/-! DEFINITION. The values the spec leaves open, each of them opaque, so that no proof can lean on one.
The constants of the architecture (spec 00_scope.md R5) are not parameters ("None is left to the implementation") and
stand as numerals where the rules have them: 16 bits a word, 32768 memory cells, the modulus 32768, 8 registers named
by the operand words 32768 to 32775, 32775 the largest valid word, 22 opcodes, at most 3 operand words. -/

namespace Sys2Proof.Config

/-- FREE VALUE (log 5): what `STATUS.info` holds for a code point that does not fit its 32 bits.
R152 records "the code point", R143 gives it no bound. -/
opaque oversizeInfo : Nat → BitVec 32

/-- FREE VALUE (log 6): whether trimming removes a character whose standing R137 leaves open. -/
opaque trimsCharacter : Nat → Bool

/-- FREE VALUE (log 7): what is queued for a line that ends without a newline (R139: not stated). -/
opaque unterminatedLine : List Nat → List Nat

/-- PARAMETER of the Console's rendering (R133, D16): is the word a valid character code? -/
opaque isValidChar : Word → Bool

/-- PARAMETER of the Console's rendering (R133, D16): the characters of the bracketed numeric placeholder. -/
opaque placeholder : Word → List Nat

/-- PARAMETER of the Console's rendering (R142, D16): does the prompt appear on standard output? -/
opaque promptOnOutput : Bool

end Sys2Proof.Config
end

