-- ==== Sys2Proof/Syntax.lean ====
section
/-! DEFINITION. The instructions as data: registers, operand words by class, opcodes, instructions
(spec 30_encoding.md R50 to R56). -/

namespace Sys2Proof

/-- The eight registers (10_state.md R10). -/
inductive Reg where
  | r0 | r1 | r2 | r3 | r4 | r5 | r6 | r7
deriving DecidableEq, Repr

/-- An operand word, by its class (R54, R55). A destination operand is an operand word too: whether it names a
register is asked when it is used (R53, R58). -/
inductive Operand where
  /-- LITERAL, the words 0..32767: "bits [14:0] = value" (R54). -/
  | literal (v : BitVec 15)
  /-- REGISTER(n), the words 32768..32775 (R54). -/
  | register (r : Reg)
  /-- INVALID, the words 32776..65535 (R54). The word is kept, because a fault records it (R152). -/
  | invalid (w : Word)
deriving DecidableEq, Repr

/-- The 22 opcodes (R52). `inp` is the spec's `in`, a reserved word of Lean. -/
inductive Opcode where
  | halt | set | push | pop | eq | gt | jmp | jt | jf | add | mult | mod | and | or | not
  | rmem | wmem | call | ret | out | inp | noop
deriving DecidableEq, Repr

/-- The 22 instructions with their operands in memory order (R50, R52): `d` is a raw destination, every other
operand is a source. -/
inductive Instr where
  /-- `halt` (R90). -/
  | halt
  /-- `set dest a` (R95). -/
  | set (d a : Operand)
  /-- `push a` (R96). -/
  | push (a : Operand)
  /-- `pop dest` (R97). -/
  | pop (d : Operand)
  /-- `eq dest a b` (R100). -/
  | eq (d a b : Operand)
  /-- `gt dest a b` (R101). -/
  | gt (d a b : Operand)
  /-- `jmp a` (R105). -/
  | jmp (a : Operand)
  /-- `jt a b` (R106). -/
  | jt (a b : Operand)
  /-- `jf a b` (R107). -/
  | jf (a b : Operand)
  /-- `add dest a b` (R110). -/
  | add (d a b : Operand)
  /-- `mult dest a b` (R111). -/
  | mult (d a b : Operand)
  /-- `mod dest a b` (R112). -/
  | mod (d a b : Operand)
  /-- `and dest a b` (R113). -/
  | and (d a b : Operand)
  /-- `or dest a b` (R114). -/
  | or (d a b : Operand)
  /-- `not dest a` (R115). -/
  | not (d a : Operand)
  /-- `rmem dest addr` (R120). -/
  | rmem (d addr : Operand)
  /-- `wmem addr val` (R121). -/
  | wmem (addr val : Operand)
  /-- `call a` (R125). -/
  | call (a : Operand)
  /-- `ret` (R126). -/
  | ret
  /-- `out a` (R130). -/
  | out (a : Operand)
  /-- `in dest` (R131). -/
  | inp (d : Operand)
  /-- `noop` (R91). -/
  | noop
deriving DecidableEq, Repr

end Sys2Proof
end

