-- ==== Sys2Proof/WellFormed.lean ====
section
/-! DEFINITION. When an instruction, as a term, is one that some words encode: an operand of class INVALID
carries a word of that class (spec 30_encoding.md R54). -/

namespace Sys2Proof

/-- The one check an operand needs: the word of an INVALID operand lies in 32776..65535 (R54). -/
def Operand.wf : Operand → Bool
  | .literal _ => true
  | .register _ => true
  | .invalid w => 32775 < w.toNat

/-- An instruction is well formed when every operand is. -/
def Instr.wf : Instr → Bool
  | .halt | .ret | .noop => true
  | .push a | .jmp a | .call a | .out a => a.wf
  | .pop d | .inp d => d.wf
  | .jt a b | .jf a b | .wmem a b => a.wf && b.wf
  | .set d a | .not d a | .rmem d a => d.wf && a.wf
  | .eq d a b | .gt d a b | .add d a b | .mult d a b | .mod d a b | .and d a b | .or d a b =>
    d.wf && a.wf && b.wf

end Sys2Proof
end

