-- ==== Sys2Proof/Decode.lean ====
section
/-! DEFINITION. The classifier, the decoder and the encoder, from the tables of spec 30_encoding.md
(R50 to R58) and the decode rule R72; then the operand roles of R52. -/

namespace Sys2Proof

/-- The register with a number in 0..7 (R10, R54). -/
def Reg.ofNumber : Nat → Reg
  | 0 => .r0 | 1 => .r1 | 2 => .r2 | 3 => .r3 | 4 => .r4 | 5 => .r5 | 6 => .r6 | _ => .r7

/-- The number of a register (R10). -/
def Reg.number : Reg → Nat
  | .r0 => 0 | .r1 => 1 | .r2 => 2 | .r3 => 3 | .r4 => 4 | .r5 => 5 | .r6 => 6 | .r7 => 7

/-- `classify(w)` (R55), total on all 65536 words. The register number is bits [2:0] of the word (R54). -/
def classify (w : Word) : Operand :=
  if w.toNat ≤ 32767 then .literal (w.setWidth 15)
  else if w.toNat ≤ 32775 then .register (Reg.ofNumber (w.toNat % 8))
  else .invalid w

/-- The operand word of an operand (R54). -/
def Operand.word : Operand → Word
  | .literal v => v.setWidth 16
  | .register r => BitVec.ofNat 16 (32768 + r.number)
  | .invalid w => w

/-- The 22 opcodes in the order of the opcode table: an opcode's number is its position (R52). -/
def opcodeTable : List Opcode :=
  [.halt, .set, .push, .pop, .eq, .gt, .jmp, .jt, .jf, .add, .mult, .mod, .and, .or, .not,
   .rmem, .wmem, .call, .ret, .out, .inp, .noop]

/-- Decode of the opcode word, compared whole (R51, R72): nothing outside 0..21 is an opcode (R57). -/
def decodeOpcode (w : Word) : Option Opcode := opcodeTable[w.toNat]?

/-- The operand count `n` of the four formats (R50, R52). -/
def Opcode.operandCount : Opcode → Nat
  | .halt | .ret | .noop => 0
  | .push | .pop | .jmp | .call | .out | .inp => 1
  | .set | .jt | .jf | .not | .rmem | .wmem => 2
  | .eq | .gt | .add | .mult | .mod | .and | .or => 3

/-- Operand word `k` (0 for `w1`) of a list of operand words, by its class. -/
def operandAt (ws : List Word) (k : Nat) : Operand := classify (ws.getD k 0)

/-- The instruction of an opcode and its operand words, left to right in memory order (R50). -/
def assemble (o : Opcode) (ws : List Word) : Instr :=
  match o with
  | .halt => .halt
  | .set => .set (operandAt ws 0) (operandAt ws 1)
  | .push => .push (operandAt ws 0)
  | .pop => .pop (operandAt ws 0)
  | .eq => .eq (operandAt ws 0) (operandAt ws 1) (operandAt ws 2)
  | .gt => .gt (operandAt ws 0) (operandAt ws 1) (operandAt ws 2)
  | .jmp => .jmp (operandAt ws 0)
  | .jt => .jt (operandAt ws 0) (operandAt ws 1)
  | .jf => .jf (operandAt ws 0) (operandAt ws 1)
  | .add => .add (operandAt ws 0) (operandAt ws 1) (operandAt ws 2)
  | .mult => .mult (operandAt ws 0) (operandAt ws 1) (operandAt ws 2)
  | .mod => .mod (operandAt ws 0) (operandAt ws 1) (operandAt ws 2)
  | .and => .and (operandAt ws 0) (operandAt ws 1) (operandAt ws 2)
  | .or => .or (operandAt ws 0) (operandAt ws 1) (operandAt ws 2)
  | .not => .not (operandAt ws 0) (operandAt ws 1)
  | .rmem => .rmem (operandAt ws 0) (operandAt ws 1)
  | .wmem => .wmem (operandAt ws 0) (operandAt ws 1)
  | .call => .call (operandAt ws 0)
  | .ret => .ret
  | .out => .out (operandAt ws 0)
  | .inp => .inp (operandAt ws 0)
  | .noop => .noop

/-- Why a list of words starts with no instruction. -/
inductive DecodeError where
  /-- There is no opcode word. -/
  | noOpcodeWord
  /-- The opcode word is not in 0..21 (R57, R72). -/
  | invalidOpcode (w : Word)
  /-- The list ends before the opcode's last operand word (R71). -/
  | missingOperands (o : Opcode)
deriving DecidableEq, Repr

/-- Decoding a list of memory words in ascending address order: the instruction it starts with and the words
after it (R50, R53, R72). -/
def decode : List Word → Except DecodeError (Instr × List Word)
  | [] => .error .noOpcodeWord
  | w0 :: rest =>
    match decodeOpcode w0 with
    | none => .error (.invalidOpcode w0)
    | some o =>
      if rest.length < o.operandCount then .error (.missingOperands o)
      else .ok (assemble o rest, rest.drop o.operandCount)

/-- The words of an instruction: its opcode number in R52's table, then its operand words. -/
def encode : Instr → List Word
  | .halt => [0]
  | .set d a => [1, d.word, a.word]
  | .push a => [2, a.word]
  | .pop d => [3, d.word]
  | .eq d a b => [4, d.word, a.word, b.word]
  | .gt d a b => [5, d.word, a.word, b.word]
  | .jmp a => [6, a.word]
  | .jt a b => [7, a.word, b.word]
  | .jf a b => [8, a.word, b.word]
  | .add d a b => [9, d.word, a.word, b.word]
  | .mult d a b => [10, d.word, a.word, b.word]
  | .mod d a b => [11, d.word, a.word, b.word]
  | .and d a b => [12, d.word, a.word, b.word]
  | .or d a b => [13, d.word, a.word, b.word]
  | .not d a => [14, d.word, a.word]
  | .rmem d addr => [15, d.word, addr.word]
  | .wmem addr val => [16, addr.word, val.word]
  | .call a => [17, a.word]
  | .ret => [18]
  | .out a => [19, a.word]
  | .inp d => [20, d.word]
  | .noop => [21]

/-- The opcode of an instruction. -/
def Instr.opcode : Instr → Opcode
  | .halt => .halt | .set _ _ => .set | .push _ => .push | .pop _ => .pop
  | .eq _ _ _ => .eq | .gt _ _ _ => .gt | .jmp _ => .jmp | .jt _ _ => .jt | .jf _ _ => .jf
  | .add _ _ _ => .add | .mult _ _ _ => .mult | .mod _ _ _ => .mod | .and _ _ _ => .and
  | .or _ _ _ => .or | .not _ _ => .not | .rmem _ _ => .rmem | .wmem _ _ => .wmem
  | .call _ => .call | .ret => .ret | .out _ => .out | .inp _ => .inp | .noop => .noop

/-- The source operands (role S of R52), in ascending operand position. -/
def Instr.sources : Instr → List Operand
  | .halt | .ret | .noop => []
  | .pop _ | .inp _ => []
  | .push a | .jmp a | .call a | .out a => [a]
  | .set _ a | .not _ a | .rmem _ a => [a]
  | .jt a b | .jf a b | .wmem a b => [a, b]
  | .eq _ a b | .gt _ a b | .add _ a b | .mult _ a b | .mod _ a b | .and _ a b | .or _ a b => [a, b]

/-- The raw destination operand (role D of R52): twelve instructions have one (R11). -/
def Instr.destination : Instr → Option Operand
  | .set d _ | .pop d | .not d _ | .rmem d _ | .inp d => some d
  | .eq d _ _ | .gt d _ _ | .add d _ _ | .mult d _ _ | .mod d _ _ | .and d _ _ | .or d _ _ => some d
  | .halt | .push _ | .jmp _ | .jt _ _ | .jf _ _ | .wmem _ _ | .call _ | .ret | .out _ | .noop => none

/-- The four words of the longest instruction whose bits, numbered as the opcode table numbers them, are the low
`nbits` bits of `w`; every bit above is 0. Word `k` is bits `16k+15 .. 16k`. -/
def tableWords (nbits w : Nat) : List Word :=
  [BitVec.ofNat 16 (w % 2 ^ nbits), BitVec.ofNat 16 (w % 2 ^ nbits / 2 ^ 16),
   BitVec.ofNat 16 (w % 2 ^ nbits / 2 ^ 32), BitVec.ofNat 16 (w % 2 ^ nbits / 2 ^ 48)]

/-- The instruction the decoder reads from an instruction whose bits are `w` as the opcode table numbers them. -/
def decodeTableWord (nbits w : Nat) : Option Instr :=
  match decode (tableWords nbits w) with
  | .ok (i, _) => some i
  | .error _ => none

end Sys2Proof
end

