-- ==== Sys2Proof/Machine/State.lean ====
section
/-! DEFINITION. The whole state of the machine as plain data (spec 10_state.md, section 1), the causes a rule
raises (60_exceptions.md R152), the host's Fault and Refusal, and the state after reset
(70_reset_and_hazards.md R180 to R185). -/

namespace Sys2Proof.Machine

/-- The register file: eight 16-bit registers (R10). -/
structure RegFile where
  r0 : Word
  r1 : Word
  r2 : Word
  r3 : Word
  r4 : Word
  r5 : Word
  r6 : Word
  r7 : Word
deriving DecidableEq, Repr

/-- One memory cell that does not hold 0: its address and its word (R30, R31: memory is addressed by word). -/
abbrev MemCell := Nat × Word

/-- Program memory (R30): the cells that differ from the zero fill, addresses strictly rising. -/
abbrev Memory := List MemCell

/-- The field `STATUS.state` (R18). -/
inductive RunState where
  | running | halted | cleanHalt | fault
deriving DecidableEq, Repr

/-- The register `STATUS` (R18): `cause` is its 4-bit field and `info` its 32-bit field. -/
structure Status where
  state : RunState
  cause : BitVec 4
  info : BitVec 32
deriving DecidableEq, Repr

/-- One answer of the Console to a request for a line (R135): a full line of code points, or an I/O failure. -/
inductive LineAnswer where
  | line (cs : List Nat)
  | failure
deriving DecidableEq, Repr

/-- One thing written to the console: a word of the OUT interface (R132), or the prompt `> ` (R142). -/
inductive ConsoleEvent where
  | out (w : Word)
  | prompt
deriving DecidableEq, Repr

/-- The Console behind `out` and `in` (48_io.md), as far as the machine meets it. -/
structure Console where
  /-- The Console's answers to line requests that have not been taken, the next one first: an input of the run that
  the machine does not choose (R143, 93 U15). The empty list: no line has arrived (R136), or the input has ended (R141). -/
  answers : List LineAnswer
  /-- The prompt has been written and the line is awaited (R135, R136). -/
  awaiting : Bool
  /-- How many more console writes succeed before one fails; `none`: none ever fails (R141, 93 U14). -/
  writesLeft : Option Nat
  /-- Everything written to the console, oldest first (R132, R142). -/
  transcript : List ConsoleEvent
deriving DecidableEq, Repr

/-- The state of the machine (10_state.md, section 1). -/
structure State where
  /-- `x[0]`..`x[7]` (R10). -/
  regs : RegFile
  /-- The instruction pointer IP (R14). -/
  pc : Word
  /-- Program memory `MEM` (R30). -/
  mem : Memory
  /-- The stack, top first, unbounded (R17). -/
  stack : List Word
  /-- The input buffer `INBUF`, next code point first (R21). -/
  inbuf : List Nat
  /-- `STATUS` (R18). -/
  status : Status
  /-- The Console (48_io.md). -/
  console : Console
deriving DecidableEq, Repr

/-- What a rule raises, with what it records: the eight fault causes of R152. -/
inductive Raise where
  /-- Code 1, by decode (R154). -/
  | invalidOpcode (w : Word)
  /-- Code 2, by `resolve` (R155). -/
  | invalidOperand (w : Word)
  /-- Code 3, by `checkdest` (R156). -/
  | invalidDestination (w : Word)
  /-- Code 4, by `MemRead` and `MemWrite` (R157). -/
  | invalidAddress (a : Word)
  /-- Code 5, by pop (R158). -/
  | stackUnderflow
  /-- Code 6, by in (R159). -/
  | inputOutOfRange (c : Nat)
  /-- Code 7, by in and out (R161). -/
  | consoleFailure
  /-- Code 8, by mod (R162). -/
  | divideByZero
deriving DecidableEq, Repr

/-- Reasons to stop with no next state: there are none, and nothing raises one. Every fatal condition of the spec is a
next state whose `STATUS` records it (R153), a terminated machine idles (R150), and an `in` without input waits (R136). -/
inductive Fault : Type
deriving DecidableEq, Repr

/-- Reasons to give an instruction no meaning. -/
inductive Refusal where
  /-- Only a refused arm of `exec` answers this; safe. No arm of this model does. -/
  | notModelled (mnemonic : String)
deriving DecidableEq, Repr

/-- What a step or a meaning answers. -/
abbrev Result := Host.Outcome State Fault Refusal

/-- `STATUS` at reset: RUNNING, cause 0, info 0 (R185). -/
def Status.reset : Status := { state := .running, cause := 0, info := 0 }

/-- The register file at reset: all 0 (R181). -/
def RegFile.reset : RegFile :=
  { r0 := 0, r1 := 0, r2 := 0, r3 := 0, r4 := 0, r5 := 0, r6 := 0, r7 := 0 }

/-- The Console at reset: nothing written, no line awaited (R184), and, as the model's choice (log 3), no answer
waiting and no write that fails. -/
def Console.reset : Console :=
  { answers := [], awaiting := false, writesLeft := none, transcript := [] }

/-- The machine right after reset (R180 to R185), with the image of an empty program: every cell is 0. -/
def State.reset : State :=
  { regs := RegFile.reset, pc := 0, mem := [], stack := [], inbuf := [], status := Status.reset,
    console := Console.reset }

end Sys2Proof.Machine
end

