-- ==== Sys2Proof/Machine/Ops.lean ====
section
/-! DEFINITION. The named operations over registers, memory, stack, IP and STATUS (spec 00_scope.md R8), with fault
entry (60_exceptions.md R153) and termination (R151) as one operation each. -/

namespace Sys2Proof.Machine

/-! ### Registers (10_state.md R10) -/

/-- `x[i]`. -/
def RegFile.get (f : RegFile) : Reg → Word
  | .r0 => f.r0 | .r1 => f.r1 | .r2 => f.r2 | .r3 => f.r3
  | .r4 => f.r4 | .r5 => f.r5 | .r6 => f.r6 | .r7 => f.r7

/-- `x[i] <- v`: all 16 bits. -/
def RegFile.set (f : RegFile) (r : Reg) (v : Word) : RegFile :=
  match r with
  | .r0 => { f with r0 := v } | .r1 => { f with r1 := v }
  | .r2 => { f with r2 := v } | .r3 => { f with r3 := v }
  | .r4 => { f with r4 := v } | .r5 => { f with r5 := v }
  | .r6 => { f with r6 := v } | .r7 => { f with r7 := v }

/-! ### Memory (20_memory.md R30 to R36) -/

/-- What an unlisted cell holds: the zero fill (R30, R180). -/
def Memory.fill : Word := 0

/-- The word in cell `a`. -/
def Memory.read (m : Memory) (a : Nat) : Word :=
  match m with
  | [] => Memory.fill
  | (b, w) :: rest => if a = b then w else Memory.read rest a

/-- A cell put before the cells after it, or left out when it holds the fill. -/
def Memory.put (a : Nat) (v : Word) (rest : Memory) : Memory :=
  if v = Memory.fill then rest else (a, v) :: rest

/-- Cell `a` becomes `v`; the list keeps its canonical form. -/
def Memory.write (m : Memory) (a : Nat) (v : Word) : Memory :=
  match m with
  | [] => Memory.put a v []
  | (b, w) :: rest =>
    if a < b then Memory.put a v ((b, w) :: rest)
    else if a = b then Memory.put a v rest
    else (b, w) :: Memory.write rest a v

/-- Every listed address is at least `lo` and below 32768, addresses rise, and no listed cell holds the fill. -/
def Memory.wfFrom (lo : Nat) : Memory → Bool
  | [] => true
  | (a, w) :: rest =>
    decide (lo ≤ a) && decide (a < 32768) && decide (w ≠ Memory.fill) && Memory.wfFrom (a + 1) rest

/-- The canonical form of a memory. -/
def Memory.wf (m : Memory) : Bool := Memory.wfFrom 0 m

/-- The memory that holds `ws` from address `a` upward and the fill elsewhere (R180). -/
def Memory.ofWords (a : Nat) : List Word → Memory
  | [] => []
  | w :: ws => Memory.put a w (Memory.ofWords (a + 1) ws)

/-- `ws` written to the cells from address `a` upward. -/
def Memory.writeWords (m : Memory) (a : Nat) : List Word → Memory
  | [] => m
  | w :: ws => Memory.writeWords (m.write a w) (a + 1) ws

/-- `MemRead(addr, 1)` (R33). -/
def memRead (m : Memory) (addr : Word) : Except Raise Word :=
  if addr.toNat < 32768 then .ok (m.read addr.toNat) else .error (.invalidAddress addr)

/-- `MemWrite(addr, 1, v)` (R34). -/
def memWrite (m : Memory) (addr v : Word) : Except Raise Memory :=
  if addr.toNat < 32768 then .ok (m.write addr.toNat v) else .error (.invalidAddress addr)

/-! ### Updates of the state -/

/-- `x[i] <- v`. -/
def State.setReg (s : State) (r : Reg) (v : Word) : State := { s with regs := s.regs.set r v }

/-- `pc <- t`, not reduced and not checked (R76). -/
def State.setPc (s : State) (t : Word) : State := { s with pc := t }

/-- The IP update of an instruction with `n` operand words that does not redirect: `pc + 1 + n` (R76). -/
def State.advance (s : State) (n : Nat) : State := s.setPc (s.pc + BitVec.ofNat 16 (1 + n))

/-- Memory replaced. -/
def State.setMem (s : State) (m : Memory) : State := { s with mem := m }

/-- The stack replaced. -/
def State.setStack (s : State) (st : List Word) : State := { s with stack := st }

/-- `push(v)` (R17). -/
def State.push (s : State) (v : Word) : State := s.setStack (v :: s.stack)

/-- The input buffer replaced. -/
def State.setInbuf (s : State) (cs : List Nat) : State := { s with inbuf := cs }

/-- The Console replaced. -/
def State.setConsole (s : State) (c : Console) : State := { s with console := c }

/-- `STATUS` replaced. -/
def State.setStatus (s : State) (st : Status) : State := { s with status := st }

/-- Is `STATUS.state` RUNNING (R150)? -/
def State.isRunning (s : State) : Bool := decide (s.status.state = .running)

/-! ### Fault entry and termination -/

/-- The code of a fault cause (R152). -/
def Raise.code : Raise → BitVec 4
  | .invalidOpcode _ => 1
  | .invalidOperand _ => 2
  | .invalidDestination _ => 3
  | .invalidAddress _ => 4
  | .stackUnderflow => 5
  | .inputOutOfRange _ => 6
  | .consoleFailure => 7
  | .divideByZero => 8

/-- A code point in the 32 bits of `STATUS.info` (R152); a free value where it does not fit (log 5). -/
def codePointInfo (c : Nat) : BitVec 32 :=
  if c < 2 ^ 32 then BitVec.ofNat 32 c else Config.oversizeInfo c

/-- What a fault cause records in `STATUS.info` (R152). -/
def Raise.info : Raise → BitVec 32
  | .invalidOpcode w => w.setWidth 32
  | .invalidOperand w => w.setWidth 32
  | .invalidDestination w => w.setWidth 32
  | .invalidAddress a => a.setWidth 32
  | .stackUnderflow => 0
  | .inputOutOfRange c => codePointInfo c
  | .consoleFailure => 0
  | .divideByZero => 0

/-- `raise F(info)`, fault entry (R153): `STATUS` records the fault and nothing else changes. -/
def State.raise (s : State) (f : Raise) : State :=
  s.setStatus { state := .fault, cause := f.code, info := f.info }

/-- `terminate(HALTED)` and `terminate(CLEAN_HALT)` (R151): `STATUS.state` changes and nothing else. -/
def State.terminate (s : State) (st : RunState) : State :=
  s.setStatus { s.status with state := st }

/-- The end of an instruction (R75 phase 7, R78): its effects all together, or fault entry at the state before it. -/
def State.commit (s : State) (r : Except Raise State) : Result :=
  match r with
  | .ok t => .next t
  | .error f => .next (s.raise f)

/-- A machine that has terminated executes nothing and changes nothing (R150). -/
def State.idle (s : State) : Result := .next s

end Sys2Proof.Machine
end

