-- ==== Sys2Proof/Machine/Operands.lean ====
section
/-! DEFINITION. The operand resolver (spec 40_fetch_decode_execute.md R73, R74): the value of a source operand and
the register of a destination operand. -/

namespace Sys2Proof.Machine

/-- `resolve(w)` (R73): all 16 bits of a register, not inspected and not masked. -/
def resolve (s : State) : Operand → Except Raise Word
  | .literal v => .ok (v.setWidth 16)
  | .register r => .ok (s.regs.get r)
  | .invalid w => .error (.invalidOperand w)

/-- `checkdest(w)` (R74): only a register reference is a destination. -/
def checkdest : Operand → Except Raise Reg
  | .register r => .ok r
  | .literal v => .error (.invalidDestination (Operand.word (.literal v)))
  | .invalid w => .error (.invalidDestination w)

/-- `store(w, v)` (R74): `x[checkdest(w)] <- v`. -/
def store (s : State) (d : Operand) (v : Word) : Except Raise State := do
  let i ← checkdest d
  return s.setReg i v

end Sys2Proof.Machine
end

