-- ==== Sys2Proof/Machine/Flags.lean ====
section
/-! DEFINITION. The hardware has no flags and no condition codes (spec 10_state.md R16), so no flag is computed
here. What stands in their place: the codes of `STATUS.state` (R18) and the zero test of jt and jf (R106, R107). -/

namespace Sys2Proof.Machine

/-- The 2-bit code of `STATUS.state` (R18). -/
def RunState.code : RunState → BitVec 2
  | .running => 0
  | .halted => 1
  | .cleanHalt => 2
  | .fault => 3

/-- The condition of jt: the word, all 16 bits of it, is not zero (R106). Its complement is the condition of jf (R107). -/
def nonZero (a : Word) : Bool := decide (a ≠ 0)

end Sys2Proof.Machine
end

