-- ==== Sys2Proof/Machine/Alu.lean ====
section
/-! DEFINITION. The arithmetic and logic unit (spec 45_alu.md, 43_compare.md): its eight operations on full 16-bit
unsigned values, and the instructions that use them. There is no shift (R119). -/

namespace Sys2Proof.Machine

/-! ### The operations (R116 to R118): exact on naturals, then reduced modulo 32768 -/

/-- A natural number reduced modulo 32768, as a word (R116). -/
def reduce (n : Nat) : Word := BitVec.ofNat 16 (n % 32768)

/-- 1 when the condition holds, else 0 (R100, R101). -/
def truthWord (c : Bool) : Word := if c then 1 else 0

/-- `(a + b) mod 32768` (R110). -/
def aluAdd (a b : Word) : Except Raise Word := .ok (reduce (a.toNat + b.toNat))

/-- `(a * b) mod 32768`, the product exact (R111, R118). -/
def aluMult (a b : Word) : Except Raise Word := .ok (reduce (a.toNat * b.toNat))

/-- `(a mod b) mod 32768`; a zero divisor raises DivideByZero (R112). -/
def aluMod (a b : Word) : Except Raise Word :=
  if b.toNat = 0 then .error .divideByZero else .ok (reduce (a.toNat % b.toNat))

/-- `(a AND b) mod 32768` (R113). -/
def aluAnd (a b : Word) : Except Raise Word := .ok (reduce (a &&& b).toNat)

/-- `(a OR b) mod 32768` (R114). -/
def aluOr (a b : Word) : Except Raise Word := .ok (reduce (a ||| b).toNat)

/-- `NOT16(a) mod 32768`, where `NOT16(a) = 65535 - a` (R7, R115). -/
def aluNot (a : Word) : Word := reduce (65535 - a.toNat)

/-- Equality of the two 16-bit words (R100). -/
def aluEq (a b : Word) : Except Raise Word := .ok (truthWord (decide (a.toNat = b.toNat)))

/-- Unsigned comparison of the two 16-bit words (R101). -/
def aluGt (a b : Word) : Except Raise Word := .ok (truthWord (decide (b.toNat < a.toNat)))

/-- What the three-operand instructions share (R75 phases 4 to 7): both sources, the operation, the destination. -/
def binaryToDest (op : Word → Word → Except Raise Word) (d a b : Operand) (s : State) : Result :=
  s.commit do
    let x ← resolve s a
    let y ← resolve s b
    let v ← op x y
    let t ← store s d v
    return t.advance 3

/-! ### The instructions -/

/-- `eq dest a b` (R100). -/
def execEq (d a b : Operand) (s : State) : Result := binaryToDest aluEq d a b s

/-- `gt dest a b` (R101). -/
def execGt (d a b : Operand) (s : State) : Result := binaryToDest aluGt d a b s

/-- `add dest a b` (R110). -/
def execAdd (d a b : Operand) (s : State) : Result := binaryToDest aluAdd d a b s

/-- `mult dest a b` (R111). -/
def execMult (d a b : Operand) (s : State) : Result := binaryToDest aluMult d a b s

/-- `mod dest a b` (R112). -/
def execMod (d a b : Operand) (s : State) : Result := binaryToDest aluMod d a b s

/-- `and dest a b` (R113). -/
def execAnd (d a b : Operand) (s : State) : Result := binaryToDest aluAnd d a b s

/-- `or dest a b` (R114). -/
def execOr (d a b : Operand) (s : State) : Result := binaryToDest aluOr d a b s

/-- `not dest a` (R115). -/
def execNot (d a : Operand) (s : State) : Result :=
  s.commit do
    let x ← resolve s a
    let t ← store s d (aluNot x)
    return t.advance 2

end Sys2Proof.Machine
end

