-- ==== Sys2Proof/Machine/HaltNoop.lean ====
section
/-! DEFINITION. halt and noop (spec 41_halt_noop.md). -/

namespace Sys2Proof.Machine

/-- `halt` (R90). -/
def execHalt (s : State) : Result := .next (s.terminate .halted)

/-- `noop` (R91). -/
def execNoop (s : State) : Result := .next (s.advance 0)

end Sys2Proof.Machine
end

