-- ==== Sys2Proof/Machine/Console.lean ====
section
/-! DEFINITION. The Console behind out and in (spec 48_io.md R132 to R143): writes, line requests, the input
buffer's refill, and, for an observer only, the rendering of what was written. -/

namespace Sys2Proof.Machine

/-! ### Output -/

/-- One write to the console (R132, R142): `none` when the Console reports a failure (R141). -/
def Console.write (c : Console) (e : ConsoleEvent) : Option Console :=
  match c.writesLeft with
  | none => some { c with transcript := c.transcript ++ [e] }
  | some 0 => none
  | some (n + 1) => some { c with writesLeft := some n, transcript := c.transcript ++ [e] }

/-- The words of the OUT interface, in program order (R132): the prompts are none of them (R142). -/
def Console.outWords (c : Console) : List Word :=
  c.transcript.filterMap fun e => match e with
    | .out w => some w
    | .prompt => none

/-- How many prompts have been written (R142). -/
def Console.promptCount (c : Console) : Nat :=
  (c.transcript.filter fun e => decide (e = .prompt)).length

/-! ### Input -/

/-- Does trimming remove this character? A newline, a carriage return and a space are blank "under any reading"
(R137). Log 6: a printing ASCII character is blank under none, and the rest is a free value. -/
def isBlankChar (c : Nat) : Bool :=
  if c = 10 ∨ c = 13 ∨ c = 32 then true
  else if 33 ≤ c ∧ c ≤ 126 then false
  else Config.trimsCharacter c

/-- A line that is blank after trimming (R137). -/
def isBlankLine (cs : List Nat) : Bool := cs.all isBlankChar

/-- The line without its carriage returns (R138). -/
def stripReturns (cs : List Nat) : List Nat := cs.filter fun c => decide (c ≠ 13)

/-- What a line puts into the empty buffer (R135): nothing when it is blank, else its characters without carriage
returns and with its newline. What a line without a newline queues is a free value (R139, log 7), from which carriage
returns are removed as from every line that is not blank (R138). -/
def queuedLine (cs : List Nat) : List Nat :=
  if isBlankLine cs then []
  else if cs.getLast? = some 10 then stripReturns cs
  else stripReturns (Config.unterminatedLine cs)

/-- What `ConsoleIn()` comes to (R134). -/
inductive InputResult where
  /-- A code point, the rest of the buffer, and the Console after it. -/
  | char (c : Nat) (rest : List Nat) (console : Console)
  /-- No line has arrived: the instruction waits (R136). -/
  | waiting (console : Console)
  /-- The Console failed (R141). -/
  | failed (console : Console)
deriving DecidableEq, Repr

/-- Before a line is read the prompt is written (R135, R142), once for each line that is awaited. -/
def Console.requestLine (c : Console) : Option Console :=
  if c.awaiting then some c
  else (c.write .prompt).map fun c' => { c' with awaiting := true }

/-- The refill loop of an empty buffer (R134, R135) over the Console's answers `as`. -/
def refill (as : List LineAnswer) (c : Console) : InputResult :=
  match c.requestLine with
  | none => .failed c
  | some c' =>
    match as with
    | [] => .waiting { c' with answers := [] }
    | .failure :: rest => .failed { c' with answers := rest, awaiting := false }
    | .line cs :: rest =>
      match queuedLine cs with
      | [] => refill rest { c' with answers := rest, awaiting := false }
      | x :: xs => .char x xs { c' with answers := rest, awaiting := false }

/-- `ConsoleIn()` (R134): a character of the buffer, or of the next line that is not blank. A buffer that is not
empty is used without touching the console (R136, R140). -/
def consoleIn (inbuf : List Nat) (c : Console) : InputResult :=
  match inbuf with
  | x :: xs => .char x xs c
  | [] => refill c.answers c

/-- The IN interface (R80): an answer of the Console arrives, between two steps, behind those not yet taken. -/
def State.supply (s : State) (a : LineAnswer) : State :=
  s.setConsole { s.console with answers := s.console.answers ++ [a] }

/-! ### Rendering, for an observer of standard output (R133, R142): no step reads it -/

/-- The code points standard output shows for one event. 65 is shown as `A`; every other word's validity, the
placeholder's text and the prompt's stream are parameters (D16, log 10). -/
def ConsoleEvent.rendering : ConsoleEvent → List Nat
  | .out w => if w = 65 ∨ Config.isValidChar w then [w.toNat] else Config.placeholder w
  | .prompt => if Config.promptOnOutput then ['>'.toNat, ' '.toNat] else []

/-- What standard output shows, as code points. -/
def Console.rendered (c : Console) : List Nat := c.transcript.flatMap ConsoleEvent.rendering

end Sys2Proof.Machine
end

