-- ==== Sys2Proof/Machine/Io.lean ====
section
/-! DEFINITION. out and in (spec 48_io.md R130, R131). -/

namespace Sys2Proof.Machine

/-- `ConsoleOut(v)` (R132): one transaction of the OUT interface, or ConsoleFailure. -/
def consoleOut (s : State) (v : Word) : Except Raise State :=
  match s.console.write (.out v) with
  | some c => .ok (s.setConsole c)
  | none => .error .consoleFailure

/-- `out a` (R130). -/
def execOut (a : Operand) (s : State) : Result :=
  s.commit do
    let v ← resolve s a
    let t ← consoleOut s v
    return t.advance 1

/-- The end of `in` once a code point has been taken (R131): the range check, then the destination. -/
def deliver (d : Operand) (c : Nat) (s : State) : Except Raise State := do
  if 32768 ≤ c then throw (.inputOutOfRange c)
  let t ← store s d (BitVec.ofNat 16 c)
  return t.advance 1

/-- `in dest` (R131). A code point once taken stays taken, also when the instruction then faults (R78); while no
line has arrived the instruction waits, and runs again at the next step (R136, log 2). -/
def execIn (d : Operand) (s : State) : Result :=
  match consoleIn s.inbuf s.console with
  | .waiting k => .next (s.setConsole k)
  | .failed k => .next ((s.setConsole k).raise .consoleFailure)
  | .char c rest k =>
    let t := (s.setInbuf rest).setConsole k
    t.commit (deliver d c t)

end Sys2Proof.Machine
end

