-- ==== Sys2Proof/Machine/Jump.lean ====
section
/-! DEFINITION. jmp, jt, jf (spec 44_jumps.md) and call, ret (47_call_ret.md): the instructions that redirect IP. -/

namespace Sys2Proof.Machine

/-- `jmp a` (R105). -/
def execJmp (a : Operand) (s : State) : Result :=
  s.commit do
    let target ← resolve s a
    return s.setPc target

/-- `jt a b` (R106): the target is resolved whether or not the jump is taken. -/
def execJt (a b : Operand) (s : State) : Result :=
  s.commit do
    let c ← resolve s a
    let target ← resolve s b
    return if nonZero c then s.setPc target else s.advance 2

/-- `jf a b` (R107): the target is resolved whether or not the jump is taken. -/
def execJf (a b : Operand) (s : State) : Result :=
  s.commit do
    let c ← resolve s a
    let target ← resolve s b
    return if nonZero c then s.advance 2 else s.setPc target

/-- `call a` (R125): pushes the address of the next instruction, `pc + 2`. -/
def execCall (a : Operand) (s : State) : Result :=
  s.commit do
    let target ← resolve s a
    return (s.push (s.pc + 2)).setPc target

/-- `ret` (R126): a clean halt on an empty stack, else IP becomes the popped word. -/
def execRet (s : State) : Result :=
  match s.stack with
  | [] => .next (s.terminate .cleanHalt)
  | t :: rest => .next ((s.setStack rest).setPc t)

end Sys2Proof.Machine
end

