-- ==== Sys2Proof/Machine/LoadStore.lean ====
section
/-! DEFINITION. rmem and wmem (spec 46_rmem_wmem.md): the resolved value is the address, used directly (R35). -/

namespace Sys2Proof.Machine

/-- `rmem dest addr` (R120). -/
def execRmem (d addr : Operand) (s : State) : Result :=
  s.commit do
    let a ← resolve s addr
    let v ← memRead s.mem a
    let t ← store s d v
    return t.advance 2

/-- `wmem addr val` (R121). -/
def execWmem (addr val : Operand) (s : State) : Result :=
  s.commit do
    let a ← resolve s addr
    let v ← resolve s val
    let m ← memWrite s.mem a v
    return (s.setMem m).advance 2

end Sys2Proof.Machine
end

