-- ==== Sys2Proof/Machine/Move.lean ====
section
/-! DEFINITION. set, push, pop (spec 42_set_push_pop.md). -/

namespace Sys2Proof.Machine

/-- `set dest a` (R95). -/
def execSet (d a : Operand) (s : State) : Result :=
  s.commit do
    let v ← resolve s a
    let t ← store s d v
    return t.advance 2

/-- `push a` (R96). -/
def execPush (a : Operand) (s : State) : Result :=
  s.commit do
    let v ← resolve s a
    return (s.push v).advance 1

/-- `pop dest` (R97). -/
def execPop (d : Operand) (s : State) : Result :=
  s.commit do
    match s.stack with
    | [] => throw .stackUnderflow
    | v :: rest =>
      let t ← store s d v
      return (t.setStack rest).advance 1

end Sys2Proof.Machine
end

