-- ==== Sys2Proof/Machine/Fetch.lean ====
section
/-! DEFINITION. The fetch unit and the decode phase (spec 40_fetch_decode_execute.md R70 to R72, R75 phases 1 to 3). -/

namespace Sys2Proof.Machine

/-- The `n` operand words from address `a` upward, the lowest address first (R71). -/
def fetchOperands (m : Memory) (a : Word) : Nat → Except Raise (List Word)
  | 0 => .ok []
  | n + 1 => do
    let w ← memRead m a
    let ws ← fetchOperands m (a + 1) n
    return w :: ws

/-- Phases 1 to 3 of the instruction cycle (R75): opcode fetch, decode, operand fetch. -/
def fetchInstr (s : State) : Except Raise Instr := do
  let w0 ← memRead s.mem s.pc
  match decodeOpcode w0 with
  | none => throw (.invalidOpcode w0)
  | some o =>
    let ws ← fetchOperands s.mem (s.pc + 1) o.operandCount
    return assemble o ws

/-- The words of memory from IP upward, as far as the longest instruction can reach and memory goes. -/
def State.codeWords (s : State) : List Word :=
  (List.range (min 4 (32768 - s.pc.toNat))).map fun k => s.mem.read (s.pc.toNat + k)

/-- Where `withFetchWord` places an instruction: at IP, or at 0 when the four words of the longest instruction
do not fit there. -/
def State.fetchBase (s : State) : Word := if s.pc.toNat + 4 ≤ 32768 then s.pc else 0

end Sys2Proof.Machine
end

