-- ==== Sys2Proof/Machine/Loader.lean ====
section
/-! DEFINITION. The Loader's contract (spec 70_reset_and_hazards.md R186, 20_memory.md R31, 60_exceptions.md R163)
and the launch of a run: how a program comes to stand in memory at reset (R180, R188). -/

namespace Sys2Proof.Machine

/-- Why the Loader rejects a program file (R163, R186): no run exists for it. -/
inductive LoadError where
  /-- `TruncatedInput`: an odd number of bytes. -/
  | truncatedInput
  /-- `InvalidWord`: a decoded word above 32775. -/
  | invalidWord (w : Word)
  /-- More than 32768 words: treated as rejected (R186, D20). -/
  | tooLong
deriving DecidableEq, Repr

/-- Each consecutive byte pair as one word, little-endian (R31); `none` for an odd number of bytes. -/
def pairBytes : List Byte → Option (List Word)
  | [] => some []
  | [_] => none
  | lo :: hi :: rest => (pairBytes rest).map fun ws => BitVec.ofNat 16 (lo.toNat + 256 * hi.toNat) :: ws

/-- Zeros put behind the program's words up to 32768 words (R180, R186). -/
def padImage (ws : List Word) : List Word := ws ++ List.replicate (32768 - ws.length) 0

/-- The Loader (R186): the validated image of exactly 32768 words, or the reason for rejecting the file. -/
def loadImage (bytes : List Byte) : Except LoadError (List Word) :=
  match pairBytes bytes with
  | none => .error .truncatedInput
  | some ws =>
    match ws.find? fun w => decide (32775 < w.toNat) with
    | some w => .error (.invalidWord w)
    | none => if 32768 < ws.length then .error .tooLong else .ok (padImage ws)

/-- LOAD and RESET (R80, R180): the reset state with the image in memory. -/
def State.boot (image : List Word) : State := State.reset.setMem (Memory.ofWords 0 image)

/-- The start of a run from a program file (R187). -/
def State.bootFile (bytes : List Byte) : Except LoadError State := (loadImage bytes).map State.boot

end Sys2Proof.Machine
end

