-- ==== Sys2Proof/Machine/Step.lean ====
section
/-! DEFINITION. One instruction cycle (spec 40_fetch_decode_execute.md R75, R79), and the host's way to place an
instruction where the next cycle fetches it. -/

namespace Sys2Proof.Machine

/-- One step: the instruction cycle while `STATUS.state` is RUNNING (R75); else nothing happens (R150). -/
def step (s : State) : Host.Outcome State Fault Refusal :=
  if s.isRunning then
    match fetchInstr s with
    | .ok i => exec i s
    | .error f => .next (s.raise f)
  else s.idle

/-- `s` with the instruction whose bits are `w` stored where the next step fetches. A state in which no step would
fetch four words is given an IP, and a `STATUS`, with which it does. -/
def State.withFetchWord (s : State) (nbits w : Nat) : State :=
  let t := s.setMem (s.mem.writeWords s.fetchBase.toNat (tableWords nbits w))
  let u := t.setPc s.fetchBase
  if s.isRunning then u else u.setStatus Status.reset

end Sys2Proof.Machine
end

