-- ==== Sys2Proof/Safety.lean ====
section
/-! DEFINITION. The terms claims are stated in: well-formed states (spec 10_state.md R20), a consistent STATUS (R18),
a canonical memory, the outcome of a run (60_exceptions.md R151, R174), and what an instruction leaves alone. -/

namespace Sys2Proof.Machine

/-- A well-formed state (R20): every memory cell, register and stack entry is at most 32775. -/
def State.WellFormed (s : State) : Prop :=
  (∀ a, (s.mem.read a).toNat ≤ 32775) ∧
  (∀ r, (s.regs.get r).toNat ≤ 32775) ∧
  (∀ v ∈ s.stack, v.toNat ≤ 32775)

/-- `STATUS` as R18 describes it: cause and info are 0 unless the state is FAULT, and then the cause is a code
1..8 of R152. -/
def Status.Consistent (st : Status) : Prop :=
  (st.state ≠ .fault → st.cause = 0 ∧ st.info = 0) ∧
  (st.state = .fault → 1 ≤ st.cause.toNat ∧ st.cause.toNat ≤ 8)

/-- The memory is in its canonical form. -/
def State.MemCanonical (s : State) : Prop := s.mem.wf = true

/-- No carriage return waits in the input buffer (R138). -/
def State.NoReturnQueued (s : State) : Prop := 13 ∉ s.inbuf

/-- A successful run (R151, R174): HALTED or CLEAN_HALT, one class for the host. -/
def Status.success (st : Status) : Bool := decide (st.state = .halted) || decide (st.state = .cleanHalt)

/-- The machine runs and the instruction at IP is `i`: phases 1 to 3 of its cycle give `i`. -/
def State.Runs (s : State) (i : Instr) : Prop := s.isRunning = true ∧ fetchInstr s = .ok i

/-- Nothing a faulting instruction must leave alone has changed (R78, R153). -/
def State.SameCore (s t : State) : Prop :=
  t.regs = s.regs ∧ t.pc = s.pc ∧ t.mem = s.mem ∧ t.stack = s.stack

/-- `t` has raised `f`. -/
def State.Raised (t : State) (f : Raise) : Prop :=
  t.status = { state := .fault, cause := f.code, info := f.info }

/-- The word of the first source operand that is of class INVALID, in operand order (R160, item 4). -/
def firstInvalid : List Operand → Option Word
  | [] => none
  | .invalid w :: _ => some w
  | _ :: rest => firstInvalid rest

end Sys2Proof.Machine
end

