-- ==== Sys2Proof/Certificates/Slice0/Obligations.lean ====
section
/-! DEFINITION. The statements for the provers. Every one is about every state and every operand; what rests on one of
the spec's own decisions (92_eei_decisions.md D<n>) or on the model's log says so. -/

namespace Sys2Proof.Spec

open Sys2Proof.Machine

/-- The shape of the instructions `dest, a, b` (45_alu.md, 43_compare.md): the encoding, the faults in their order, and
the result `result a b` in the destination, with IP moved to `pc + 4` and nothing else changed. `own x y` is the
operation's own fault on the two source values, where it has one. -/
def BinaryRule (code : Word) (mk : Operand → Operand → Operand → Instr) (own : Word → Word → Option Raise)
    (result : Nat → Nat → Nat) : Prop :=
  ∀ (s : State) (d a b : Operand),
    encode (mk d a b) = [code, d.word, a.word, b.word] ∧
    (∀ f, resolve s a = .error f → exec (mk d a b) s = .next (s.raise f)) ∧
    (∀ x f, resolve s a = .ok x → resolve s b = .error f → exec (mk d a b) s = .next (s.raise f)) ∧
    (∀ x y f, resolve s a = .ok x → resolve s b = .ok y → own x y = some f →
      exec (mk d a b) s = .next (s.raise f)) ∧
    (∀ x y f, resolve s a = .ok x → resolve s b = .ok y → own x y = none → checkdest d = .error f →
      exec (mk d a b) s = .next (s.raise f)) ∧
    (∀ x y r, resolve s a = .ok x → resolve s b = .ok y → own x y = none → checkdest d = .ok r →
      exec (mk d a b) s = .next ((s.setReg r (BitVec.ofNat 16 (result x.toNat y.toNat))).setPc (s.pc + 4)))

/-- No fault of the operation's own. -/
def noOwnFault (_ _ : Word) : Option Raise := none

/-- The own fault of `mod`: a zero divisor. -/
def zeroDivisor (_ y : Word) : Option Raise := if y = 0 then some .divideByZero else none

/-- The opcode map of 30_encoding.md, written out from its table: row by row the instruction and how many operand
words its format has. -/
def opcodeMap : List (Opcode × Nat) :=
  [(.halt, 0), (.set, 2), (.push, 1), (.pop, 1), (.eq, 3), (.gt, 3), (.jmp, 1), (.jt, 2), (.jf, 2), (.add, 3),
   (.mult, 3)] ++
  [(.mod, 3), (.and, 3), (.or, 3), (.not, 2), (.rmem, 2), (.wmem, 2), (.call, 1), (.ret, 0), (.out, 1), (.inp, 1),
   (.noop, 0)]

/-- How many prompts are written before the line behind so many blank lines is read: one for each of the lines
(48_io.md R135, R142), but none for the first of them when its prompt stands already (`awaiting`, log 2). -/
def promptsBefore (awaiting : Bool) (blanks : Nat) : Nat := if awaiting then blanks else blanks + 1

/-- Is an answer of the Console a line that is blank after trimming (R137)? -/
def isBlankAnswer : LineAnswer → Bool
  | .line cs => isBlankLine cs
  | .failure => false

end Sys2Proof.Spec

open Sys2Proof Sys2Proof.Machine

/-! ### Encoding and decoding -/

/-- R55: the classifier. -/
def Obligations.ClassifyByRanges : Prop :=
  ∀ w : Word,
    (w.toNat ≤ 32767 → ∃ v : BitVec 15, classify w = .literal v ∧ v.toNat = w.toNat) ∧
    (32768 ≤ w.toNat → w.toNat ≤ 32775 → ∃ r, classify w = .register r ∧ r.number = w.toNat - 32768) ∧
    (32776 ≤ w.toNat → classify w = .invalid w)

/-- 30_encoding.md R50, R52, R54: no bit of an encoding is dropped, for every instruction and all operands. -/
def Obligations.DecodeOfEncode : Prop :=
  ∀ (i : Instr) (rest : List Word), i.wf = true → decode (encode i ++ rest) = .ok (i, rest)

/-- 30_encoding.md R50 to R53: what is decoded is well formed and is encoded by exactly the words decoded. -/
def Obligations.EncodeOfDecode : Prop :=
  ∀ (ws rest : List Word) (i : Instr), decode ws = .ok (i, rest) → i.wf = true ∧ encode i ++ rest = ws

/-- R72: decode of the opcode word is total; 0..21 select an instruction and its operand count, every other word raises
InvalidOpcode, and no operand word is fetched for it (whatever stands behind it, or nothing). -/
def Obligations.OpcodeDecodeIsTotal : Prop :=
  (∀ (w : Word) (rest : List Word), 3 ≤ rest.length → w.toNat ≤ 21 →
    ∃ i, decode (w :: rest) = .ok (i, rest.drop i.opcode.operandCount) ∧
      (encode i).head? = some w ∧ (encode i).length = 1 + i.opcode.operandCount ∧
      Spec.opcodeMap[w.toNat]? = some (i.opcode, i.opcode.operandCount)) ∧
  (∀ (w : Word) (rest : List Word), 22 ≤ w.toNat → decode (w :: rest) = .error (.invalidOpcode w)) ∧
  (∀ s : State, s.isRunning = true → s.pc.toNat < 32768 → 22 ≤ (s.mem.read s.pc.toNat).toNat →
    step s = .next (s.raise (.invalidOpcode (s.mem.read s.pc.toNat))))

/-- A few words written out from R50's layouts and R52's table. -/
def Obligations.SampleWordsDecode : Prop :=
  decode [9, 32768, 32769, 4, 19, 32768] =
    .ok (.add (.register .r0) (.register .r1) (.literal 4), [19, 32768]) ∧
  decode [19, 32768] = .ok (.out (.register .r0), []) ∧
  decode [1, 5, 40000] = .ok (.set (.literal 5) (.invalid 40000), []) ∧
  decode [18] = .ok (.ret, []) ∧
  decode [16, 100, 32775] = .ok (.wmem (.literal 100) (.register .r7), []) ∧
  decode [22] = .error (.invalidOpcode 22)

/-! ### Registers, operands, memory, reset -/

/-- R10: eight registers of 16 bits, register N named by the operand word 32768 + N, with no aliases; a write replaces
all 16 bits of one. -/
def Obligations.RegistersAreIndependent : Prop :=
  (∀ n, n < 8 → ∃ r : Reg, r.number = n) ∧
  (∀ r : Reg, r.number < 8 ∧ classify (BitVec.ofNat 16 (32768 + r.number)) = .register r) ∧
  (∀ r q : Reg, r.number = q.number → r = q) ∧
  ∀ (f : RegFile) (r q : Reg) (v : Word), (f.set r v).get q = if q = r then v else f.get q

/-- R74, `checkdest` and `store` of a raw destination word, beside `resolve` of a raw source word (section 2 of the
same file). -/
def Obligations.ResolveAndStoreByClass : Prop :=
  ∀ (s : State) (w v : Word),
    (w.toNat ≤ 32767 → resolve s (classify w) = .ok w ∧
      checkdest (classify w) = .error (.invalidDestination w) ∧
      store s (classify w) v = .error (.invalidDestination w)) ∧
    (32768 ≤ w.toNat → w.toNat ≤ 32775 → ∃ r, r.number = w.toNat - 32768 ∧
      resolve s (classify w) = .ok (s.regs.get r) ∧ checkdest (classify w) = .ok r ∧
      store s (classify w) v = .ok (s.setReg r v) ∧ (s.setReg r v).regs.get r = v) ∧
    (32776 ≤ w.toNat → resolve s (classify w) = .error (.invalidOperand w) ∧
      checkdest (classify w) = .error (.invalidDestination w) ∧
      store s (classify w) v = .error (.invalidDestination w))

/-- R33 and R34: `MemRead` and `MemWrite`. The memory is one in canonical form (log 1), which every step keeps. -/
def Obligations.MemAccessChecksAddress : Prop :=
  ∀ (m : Memory) (a v : Word), m.wf = true →
    (32768 ≤ a.toNat → memRead m a = .error (.invalidAddress a) ∧ memWrite m a v = .error (.invalidAddress a)) ∧
    (a.toNat < 32768 → memRead m a = .ok (m.read a.toNat) ∧
      ∃ m', memWrite m a v = .ok m' ∧ m'.wf = true ∧ memRead m' a = .ok v ∧
        ∀ b, b ≠ a.toNat → m'.read b = m.read b)

/-- The model's representation (log 1): equal contents are equal data. -/
def Obligations.CanonicalMemoryIsUnique : Prop :=
  ∀ m n : Memory, m.wf = true → n.wf = true → (∀ a, a < 32768 → m.read a = n.read a) → m = n

/-- R183 and R184, and the spec's decisions D7 (R181, R182) and D8 (R185): the reset state. Memory of the empty program
is 0 everywhere (R180). -/
def Obligations.ResetState : Prop :=
  (∀ r, State.reset.regs.get r = 0) ∧ State.reset.pc = 0 ∧ (∀ a, State.reset.mem.read a = 0) ∧
  State.reset.stack = [] ∧ State.reset.inbuf = [] ∧
  State.reset.status = { state := .running, cause := 0, info := 0 } ∧
  State.reset.console.awaiting = false ∧ State.reset.console.transcript = []

/-- R180: memory at reset holds the Loader's image, the program's words in file order and then zeros. Word `k` of the
file is its byte pair, little-endian (20_memory.md, section 2). -/
def Obligations.BootHoldsTheImage : Prop :=
  ∀ (bytes : List Byte) (image : List Word), loadImage bytes = .ok image →
    image.length = 32768 ∧
    (∀ k (hk : k < image.length), (State.boot image).mem.read k = image[k]) ∧
    (∀ k lo hi, bytes[2 * k]? = some lo → bytes[2 * k + 1]? = some hi →
      ((State.boot image).mem.read k).toNat = lo.toNat + 256 * hi.toNat) ∧
    (∀ k, bytes.length ≤ 2 * k → (State.boot image).mem.read k = 0)

/-- 70_reset_and_hazards.md, the Loader's contract, and decision D20 for a file that is too long: which files have a
run, and that a run starts well formed. That an odd file is reported as truncated also when it holds a word above 32775
is the model's choice (log 11): the spec does not say which of the two is reported. -/
def Obligations.LoaderAcceptsExactlyValidFiles : Prop :=
  ∀ bytes : List Byte,
    (bytes.length % 2 = 1 → loadImage bytes = .error .truncatedInput) ∧
    (∀ ws, pairBytes bytes = some ws →
      ((∃ image, loadImage bytes = .ok image) ↔ (∀ w ∈ ws, w.toNat ≤ 32775) ∧ ws.length ≤ 32768)) ∧
    (∀ image, loadImage bytes = .ok image →
      (State.boot image).WellFormed ∧ (State.boot image).MemCanonical ∧ (State.boot image).status.Consistent)

/-! ### The instruction cycle -/

/-- R75: while the machine runs, a step is the meaning of the instruction whose words stand from IP upward. -/
def Obligations.StepRunsTheDecodedInstruction : Prop :=
  ∀ (s : State) (i : Instr) (rest : List Word), s.isRunning = true → decode s.codeWords = .ok (i, rest) →
    fetchInstr s = .ok i ∧ step s = exec i s

/-- R70 and R71: the opcode word is read at IP and then all operand words in ascending order, and the instruction they
make runs; the opcode fetch, or an operand fetch, past the end of memory raises InvalidAddress with the first address
that does not exist. -/
def Obligations.FetchReadsTheWordsOrFaults : Prop :=
  (∀ (s : State) (o : Opcode), s.isRunning = true → decodeOpcode (s.mem.read s.pc.toNat) = some o →
    s.pc.toNat + o.operandCount < 32768 →
    ∃ i, encode i = (List.range (1 + o.operandCount)).map (fun k => s.mem.read (s.pc.toNat + k)) ∧
      step s = exec i s) ∧
  (∀ s : State, s.isRunning = true → 32768 ≤ s.pc.toNat → step s = .next (s.raise (.invalidAddress s.pc))) ∧
  (∀ (s : State) (o : Opcode) (k : Nat), s.isRunning = true → s.pc.toNat < 32768 →
    decodeOpcode (s.mem.read s.pc.toNat) = some o → 1 ≤ k → k ≤ o.operandCount → s.pc.toNat + k = 32768 →
    step s = .next (s.raise (.invalidAddress (s.pc + BitVec.ofNat 16 k))))

/-- R150: the machine runs from reset until a halt, a ret on an empty stack or a fault; from then on it never does
anything again, however long it is run. -/
def Obligations.TerminatedMachineStaysPut : Prop :=
  State.reset.isRunning = true ∧
  (∀ s t : State, s.isRunning = true → step s = .next t →
    (t.isRunning = false ↔
      fetchInstr s = .ok .halt ∨ (fetchInstr s = .ok .ret ∧ s.stack = []) ∨ t.status.state = .fault)) ∧
  (∀ (s : State) (n : Nat), s.isRunning = false → Sys2Proof.core.run n s = .next s)

/-- 70_reset_and_hazards.md R188: every rule is defined on every state. That every step then answers a next state is
partly the model's choice: a terminated machine has one, the same state (log 9), and so has an `in` that waits (log 2),
where the spec says only that the machine makes no step. -/
def Obligations.EveryStateSteps : Prop := ∀ s : State, ∃ t, step s = .next t

/-- R151: HALTED is set only by halt, CLEAN_HALT only by ret on an empty stack, and nothing but `STATUS.state` changes,
so that cause and info stay 0; each of the two does so whenever it runs. -/
def Obligations.SuccessOnlyByHaltOrRet : Prop :=
  ∀ s t : State, s.isRunning = true → step s = .next t →
    (t.status.state = .halted ↔ fetchInstr s = .ok .halt) ∧
    (t.status.state = .cleanHalt ↔ fetchInstr s = .ok .ret ∧ s.stack = []) ∧
    (t.status.success = true →
      t = s.setStatus { state := t.status.state, cause := s.status.cause, info := s.status.info } ∧
      (s.status.Consistent → t.status.cause = 0 ∧ t.status.info = 0))

/-- 60_exceptions.md R153 (decisions D8, D10): a fault commits nothing. Only `STATUS` changes, but for an `in`, whose
Console and buffer are outside the core. -/
def Obligations.FaultCommitsNothing : Prop :=
  ∀ s t : State, s.isRunning = true → step s = .next t → t.status.state = .fault →
    ∃ f : Raise, t.Raised f ∧ s.SameCore t ∧ ((∀ d, fetchInstr s ≠ .ok (.inp d)) → t = s.raise f)

/-- 60_exceptions.md R152 (decision D8): the codes, and what each cause records; a code point of 32 bits or more is
recorded as a free value (log 5). -/
def Obligations.FaultCodesAndInfo : Prop :=
  ∀ (s : State) (w : Word) (c : Nat), c < 2 ^ 32 →
    (s.raise (.invalidOpcode w)).status = { state := .fault, cause := 1, info := BitVec.ofNat 32 w.toNat } ∧
    (s.raise (.invalidOperand w)).status = { state := .fault, cause := 2, info := BitVec.ofNat 32 w.toNat } ∧
    (s.raise (.invalidDestination w)).status = { state := .fault, cause := 3, info := BitVec.ofNat 32 w.toNat } ∧
    (s.raise (.invalidAddress w)).status = { state := .fault, cause := 4, info := BitVec.ofNat 32 w.toNat } ∧
    (s.raise .stackUnderflow).status = { state := .fault, cause := 5, info := 0 } ∧
    (s.raise (.inputOutOfRange c)).status = { state := .fault, cause := 6, info := BitVec.ofNat 32 c } ∧
    (s.raise .consoleFailure).status = { state := .fault, cause := 7, info := 0 } ∧
    (s.raise .divideByZero).status = { state := .fault, cause := 8, info := 0 }

/-! ### Invariants that every step keeps -/

/-- The canonical form of memory (log 1) is kept. -/
def Obligations.StepKeepsMemoryCanonical : Prop :=
  ∀ s t : State, s.MemCanonical → step s = .next t → t.MemCanonical

/-- 10_state.md, section 8: every instruction takes a well-formed state to a well-formed state. -/
def Obligations.StepKeepsWellFormed : Prop :=
  ∀ s t : State, s.MemCanonical → s.WellFormed → step s = .next t → t.WellFormed

/-- 10_state.md, section 8: from a well-formed state InvalidOperand cannot occur, and InvalidOpcode and
InvalidDestination occur only for words at most 32775. -/
def Obligations.WellFormedFaultsAreLimited : Prop :=
  ∀ s t : State, s.WellFormed → s.isRunning = true → step s = .next t → t.status.state = .fault →
    t.status.cause ≠ 2 ∧ (t.status.cause = 1 ∨ t.status.cause = 3 → t.status.info.toNat ≤ 32775)

/-- 10_state.md, section 6: `STATUS` stays as its table describes it. -/
def Obligations.StepKeepsStatusConsistent : Prop :=
  ∀ s t : State, s.status.Consistent → step s = .next t → t.status.Consistent

/-- 48_io.md, section 3: from a non-blank line every carriage return is removed before it is queued; none is ever
queued, so an `in` that completes writes another value. The codes 13 and 10 are the ones the spec supplies from general
knowledge. -/
def Obligations.CarriageReturnsAreStripped : Prop :=
  (∀ cs, isBlankLine cs = false → cs.getLast? = some 10 → queuedLine cs = cs.filter fun c => decide (c ≠ 13)) ∧
  (∀ s t : State, s.NoReturnQueued → step s = .next t → t.NoReturnQueued) ∧
  (∀ (s t : State) (r : Reg), s.NoReturnQueued → s.isRunning = true → exec (.inp (.register r)) s = .next t →
    t.pc = s.pc + 2 → (t.regs.get r).toNat ≠ 13)

/-- The reset state meets every invariant above. -/
def Obligations.ResetMeetsInvariants : Prop :=
  State.reset.MemCanonical ∧ State.reset.WellFormed ∧ State.reset.status.Consistent ∧ State.reset.NoReturnQueued

/-! ### Which instruction raises which fault -/

/-- R155: InvalidOperand is raised exactly when a source operand is a word of 32776..65535; of several, the first one in
operand order is recorded, and it is raised before anything else the instruction would raise. -/
def Obligations.InvalidOperandExactlyForSources : Prop :=
  ∀ (i : Instr) (s t : State), s.isRunning = true → exec i s = .next t →
    ((t.status.state = .fault ∧ t.status.cause = 2) ↔ ∃ w, Operand.invalid w ∈ i.sources) ∧
    (∀ w, firstInvalid i.sources = some w → t = s.raise (.invalidOperand w))

/-- 60_exceptions.md R156, and its section 3 (decision D9) for the order: InvalidDestination is raised only for a
destination that is no register, with its word, and only when no source operand is invalid. -/
def Obligations.InvalidDestinationOnlyForNonRegisters : Prop :=
  ∀ (i : Instr) (s t : State), s.isRunning = true → exec i s = .next t →
    t.status.state = .fault → t.status.cause = 3 →
    ∃ d, i.destination = some d ∧ (∀ r, d ≠ .register r) ∧ t.Raised (.invalidDestination d.word) ∧
      firstInvalid i.sources = none

/-- R157 (c): of the meanings only rmem and wmem raise InvalidAddress, and only for a resolved address of 32768 or
more, which is recorded. -/
def Obligations.InvalidAddressOnlyByRmemWmem : Prop :=
  ∀ (i : Instr) (s t : State), s.isRunning = true → exec i s = .next t →
    t.status.state = .fault → t.status.cause = 4 →
    ∃ x y a, (i = .rmem y x ∨ i = .wmem x y) ∧ resolve s x = .ok a ∧ 32768 ≤ a.toNat ∧
      t = s.raise (.invalidAddress a)

/-- R158: StackUnderflow is raised by pop when the stack is empty, records 0, and is raised by nothing else. -/
def Obligations.StackUnderflowExactlyByPop : Prop :=
  ∀ (i : Instr) (s t : State), s.isRunning = true → exec i s = .next t →
    ((t.status.state = .fault ∧ t.status.cause = 5) ↔ (∃ d, i = .pop d) ∧ s.stack = []) ∧
    (t.status.state = .fault → t.status.cause = 5 → t.status.info = 0)

/-- 60_exceptions.md R159 and R161, and 48_io.md R141 for the write of a prompt. InputOutOfRange is raised exactly by an
`in` whose code point is 32768 or more, which it records (one of more than 32 bits as a free value, log 5).
ConsoleFailure is raised exactly by an `out` whose write fails and by an `in` whose console access fails (log 4). -/
def Obligations.ConsoleFaultsExactlyByInOut : Prop :=
  ∀ (i : Instr) (s t : State), s.isRunning = true → exec i s = .next t →
    ((t.status.state = .fault ∧ t.status.cause = 6) ↔
      ∃ d c rest k, i = .inp d ∧ consoleIn s.inbuf s.console = .char c rest k ∧ 32768 ≤ c) ∧
    (∀ d c rest k, i = .inp d → consoleIn s.inbuf s.console = .char c rest k → 32768 ≤ c → c < 2 ^ 32 →
      t.status.info.toNat = c) ∧
    ((t.status.state = .fault ∧ t.status.cause = 7) ↔
      (∃ d k, i = .inp d ∧ consoleIn s.inbuf s.console = .failed k) ∨
      (∃ a v, i = .out a ∧ resolve s a = .ok v ∧ s.console.writesLeft = some 0)) ∧
    (t.status.state = .fault → t.status.cause = 7 → t.status.info = 0)

/-- 60_exceptions.md R162 (decision D13): DivideByZero is raised exactly by mod with a resolved divisor of 0. -/
def Obligations.DivideByZeroExactlyByMod : Prop :=
  ∀ (i : Instr) (s t : State), s.isRunning = true → exec i s = .next t →
    ((t.status.state = .fault ∧ t.status.cause = 8) ↔
      ∃ d a b x, i = .mod d a b ∧ resolve s a = .ok x ∧ resolve s b = .ok 0)

/-! ### Frames: what every instruction leaves alone -/

/-- 10_state.md R11: a register changes only when it is the destination operand. All 22 instructions. -/
def Obligations.RegisterFrame : Prop :=
  ∀ (i : Instr) (s t : State) (r : Reg), exec i s = .next t → i.destination ≠ some (.register r) →
    t.regs.get r = s.regs.get r

/-- 20_memory.md R30, R37: only wmem changes memory, and only the cell at its resolved address. All 22 instructions. -/
def Obligations.MemoryFrame : Prop :=
  ∀ (i : Instr) (s t : State), exec i s = .next t →
    ((∀ x y, i ≠ .wmem x y) → ∀ a, t.mem.read a = s.mem.read a) ∧
    (∀ x y a, i = .wmem x y → resolve s x = .ok a → ∀ b, b ≠ a.toNat → t.mem.read b = s.mem.read b) ∧
    (∀ x y f, i = .wmem x y → resolve s x = .error f → ∀ b, t.mem.read b = s.mem.read b)

/-- 10_state.md R17: only push, pop, call and ret touch the stack, each at its top only. All 22 instructions. -/
def Obligations.StackFrame : Prop :=
  ∀ (i : Instr) (s t : State), exec i s = .next t →
    (i.opcode ∉ [Opcode.push, .pop, .call, .ret] → t.stack = s.stack) ∧
    (i.opcode ∈ [Opcode.push, .call] → t.stack = s.stack ∨ ∃ v, t.stack = v :: s.stack) ∧
    (i.opcode ∈ [Opcode.pop, .ret] → t.stack = s.stack ∨ ∃ v, v :: t.stack = s.stack)

/-- 48_io.md: only `in` changes the input buffer, only `out` adds to the OUT words, and no other instruction touches
the Console. All 22 instructions. -/
def Obligations.ConsoleFrame : Prop :=
  ∀ (i : Instr) (s t : State), exec i s = .next t →
    ((∀ d, i ≠ .inp d) → t.inbuf = s.inbuf) ∧
    ((∀ d, i ≠ .inp d) → (∀ a, i ≠ .out a) → t.console = s.console) ∧
    (∀ d, i = .inp d → t.console.outWords = s.console.outWords) ∧
    (∀ a, i = .out a → t.console.answers = s.console.answers ∧ t.console.awaiting = s.console.awaiting ∧
      (t.console.outWords = s.console.outWords ∨
        ∃ v, resolve s a = .ok v ∧ t.console.outWords = s.console.outWords ++ [v]))

/-- 10_state.md R16, R18: no instruction writes `STATUS` but by a fault or a termination. All 22 instructions. -/
def Obligations.StatusFrame : Prop :=
  ∀ (i : Instr) (s t : State), exec i s = .next t →
    t.status = s.status ∨ (∃ f : Raise, t.Raised f) ∨
    (i = .halt ∧ t.status = { s.status with state := .halted }) ∨
    (i = .ret ∧ s.stack = [] ∧ t.status = { s.status with state := .cleanHalt })

/-- 40_fetch_decode_execute.md R76 (decision D5): IP after an instruction that completes, for all 22 instructions; an
`in` that waits keeps it. -/
def Obligations.NextInstructionPointer : Prop :=
  ∀ (i : Instr) (s t : State), s.isRunning = true → exec i s = .next t →
    (t.isRunning = true → i.opcode ∉ [Opcode.jmp, .jt, .jf, .call, .ret] → i.opcode ≠ .inp →
      t.pc = s.pc + BitVec.ofNat 16 (1 + i.opcode.operandCount)) ∧
    (t.isRunning = true → i.opcode = .inp →
      t.pc = s.pc + 2 ∨ (t.pc = s.pc ∧ ∃ k, consoleIn s.inbuf s.console = .waiting k)) ∧
    (∀ a v, i = .jmp a ∨ i = .call a → resolve s a = .ok v → t.pc = v) ∧
    (∀ a b c v, i = .jt a b → resolve s a = .ok c → resolve s b = .ok v →
      t.pc = if c = 0 then s.pc + 3 else v) ∧
    (∀ a b c v, i = .jf a b → resolve s a = .ok c → resolve s b = .ok v →
      t.pc = if c = 0 then v else s.pc + 3) ∧
    (∀ v rest, i = .ret → s.stack = v :: rest → t.pc = v) ∧
    (t.isRunning = false → t.pc = s.pc)

/-! ### The result of each instruction -/

/-- R90 and R91: halt and noop. -/
def Obligations.HaltTerminatesNoopAdvances : Prop :=
  encode .halt = [0] ∧ encode .noop = [21] ∧
  ∀ s : State,
    (∃ t, exec .halt s = .next t ∧ t.status = { s.status with state := .halted } ∧ t.pc = s.pc ∧ t.regs = s.regs ∧
      t.mem = s.mem ∧ t.stack = s.stack ∧ t.inbuf = s.inbuf ∧ t.console = s.console ∧ step t = .next t) ∧
    exec .noop s = .next (s.setPc (s.pc + 1))

/-- R95: set. -/
def Obligations.SetCopiesTheValue : Prop :=
  ∀ (s : State) (d a : Operand),
    encode (.set d a) = [1, d.word, a.word] ∧
    (∀ f, resolve s a = .error f → exec (.set d a) s = .next (s.raise f)) ∧
    (∀ v f, resolve s a = .ok v → checkdest d = .error f → exec (.set d a) s = .next (s.raise f)) ∧
    (∀ v r, resolve s a = .ok v → checkdest d = .ok r →
      exec (.set d a) s = .next ((s.setReg r v).setPc (s.pc + 3)))

/-- R96: push. -/
def Obligations.PushPutsTheValueOnTop : Prop :=
  ∀ (s : State) (a : Operand),
    encode (.push a) = [2, a.word] ∧
    (∀ f, resolve s a = .error f → exec (.push a) s = .next (s.raise f)) ∧
    (∀ v, resolve s a = .ok v → exec (.push a) s = .next ((s.setStack (v :: s.stack)).setPc (s.pc + 2)))

/-- R97: pop. -/
def Obligations.PopTakesTheTop : Prop :=
  ∀ (s : State) (d : Operand),
    encode (.pop d) = [3, d.word] ∧
    (s.stack = [] → exec (.pop d) s = .next (s.raise .stackUnderflow)) ∧
    (∀ v rest f, s.stack = v :: rest → checkdest d = .error f → exec (.pop d) s = .next (s.raise f)) ∧
    (∀ v rest r, s.stack = v :: rest → checkdest d = .ok r →
      exec (.pop d) s = .next (((s.setReg r v).setStack rest).setPc (s.pc + 2)))

/-- 43_compare.md, eq (R100) and gt (R101): all 16 bits, unsigned (decision D12 for values above 32767). -/
def Obligations.EqAndGtCompareWords : Prop :=
  Spec.BinaryRule 4 .eq Spec.noOwnFault (fun x y => if x = y then 1 else 0) ∧
  Spec.BinaryRule 5 .gt Spec.noOwnFault (fun x y => if x > y then 1 else 0)

/-- R105: jmp. -/
def Obligations.JmpGoesToTheTarget : Prop :=
  ∀ (s : State) (a : Operand),
    encode (.jmp a) = [6, a.word] ∧
    (∀ f, resolve s a = .error f → exec (.jmp a) s = .next (s.raise f)) ∧
    (∀ v, resolve s a = .ok v → exec (.jmp a) s = .next (s.setPc v))

/-- 44_jumps.md, jt (R106) and jf (R107, "exactly the complement of jt"), decision D11: the target is resolved whether
or not the jump is taken. -/
def Obligations.JtAndJfAreComplements : Prop :=
  ∀ (s : State) (a b : Operand),
    encode (.jt a b) = [7, a.word, b.word] ∧ encode (.jf a b) = [8, a.word, b.word] ∧
    (∀ f, resolve s a = .error f → exec (.jt a b) s = .next (s.raise f) ∧ exec (.jf a b) s = .next (s.raise f)) ∧
    (∀ c f, resolve s a = .ok c → resolve s b = .error f →
      exec (.jt a b) s = .next (s.raise f) ∧ exec (.jf a b) s = .next (s.raise f)) ∧
    (∀ c v, resolve s a = .ok c → resolve s b = .ok v → c ≠ 0 →
      exec (.jt a b) s = .next (s.setPc v) ∧ exec (.jf a b) s = .next (s.setPc (s.pc + 3))) ∧
    (∀ c v, resolve s a = .ok c → resolve s b = .ok v → c = 0 →
      exec (.jt a b) s = .next (s.setPc (s.pc + 3)) ∧ exec (.jf a b) s = .next (s.setPc v))

/-- R110 and R111: add and mult, the sum and the product exact before the reduction. -/
def Obligations.AddAndMultAreModulo32768 : Prop :=
  Spec.BinaryRule 9 .add Spec.noOwnFault (fun x y => (x + y) % 32768) ∧
  Spec.BinaryRule 10 .mult Spec.noOwnFault (fun x y => (x * y) % 32768)

/-- 45_alu.md, mod (R112; a zero divisor by decision D13, values above 32767 by D12). -/
def Obligations.ModIsTheRemainder : Prop :=
  Spec.BinaryRule 11 .mod Spec.zeroDivisor fun x y => (x % y) % 32768

/-- R113 and R114: and, or: bits [14:0] of the bitwise result. -/
def Obligations.AndAndOrAreBitwise : Prop :=
  Spec.BinaryRule 12 .and Spec.noOwnFault (fun x y => (x &&& y) % 32768) ∧
  Spec.BinaryRule 13 .or Spec.noOwnFault (fun x y => (x ||| y) % 32768)

/-- R115: not, "= 32767 - (a mod 32768)"; bits [14:0] inverted, bit 15 clear. -/
def Obligations.NotInvertsFifteenBits : Prop :=
  ∀ (s : State) (d a : Operand),
    encode (.not d a) = [14, d.word, a.word] ∧
    (∀ f, resolve s a = .error f → exec (.not d a) s = .next (s.raise f)) ∧
    (∀ x f, resolve s a = .ok x → checkdest d = .error f → exec (.not d a) s = .next (s.raise f)) ∧
    (∀ x r, resolve s a = .ok x → checkdest d = .ok r →
      exec (.not d a) s =
        .next ((s.setReg r (BitVec.ofNat 16 (32767 - x.toNat % 32768))).setPc (s.pc + 3)) ∧
      ∀ k, k < 16 → (aluNot x).getLsbD k = (decide (k < 15) && !x.getLsbD k))

/-- 45_alu.md section 1 (decision D12): an instruction of the unit that runs with a register as its destination leaves
it at most 32767; for add, mult, and, or and not, reducing the sources first gives the same result; for mod it does
not. -/
def Obligations.AluResultsAreReduced : Prop :=
  (∀ (i : Instr) (s t : State) (r : Reg), s.isRunning = true → exec i s = .next t → t.isRunning = true →
    i.destination = some (.register r) →
    i.opcode ∈ [Opcode.eq, .gt, .add, .mult, .mod, .and, .or, .not] → (t.regs.get r).toNat ≤ 32767) ∧
  (∀ a b : Word, aluAdd a b = aluAdd (reduce a.toNat) (reduce b.toNat) ∧
    aluMult a b = aluMult (reduce a.toNat) (reduce b.toNat) ∧
    aluAnd a b = aluAnd (reduce a.toNat) (reduce b.toNat) ∧
    aluOr a b = aluOr (reduce a.toNat) (reduce b.toNat) ∧ aluNot a = aluNot (reduce a.toNat)) ∧
  ∃ a b : Word, aluMod a b ≠ aluMod (reduce a.toNat) (reduce b.toNat)

/-- R120: rmem. -/
def Obligations.RmemLoadsTheCell : Prop :=
  ∀ (s : State) (d addr : Operand),
    encode (.rmem d addr) = [15, d.word, addr.word] ∧
    (∀ f, resolve s addr = .error f → exec (.rmem d addr) s = .next (s.raise f)) ∧
    (∀ a, resolve s addr = .ok a → 32768 ≤ a.toNat → exec (.rmem d addr) s = .next (s.raise (.invalidAddress a))) ∧
    (∀ a f, resolve s addr = .ok a → a.toNat < 32768 → checkdest d = .error f →
      exec (.rmem d addr) s = .next (s.raise f)) ∧
    (∀ a r, resolve s addr = .ok a → a.toNat < 32768 → checkdest d = .ok r →
      exec (.rmem d addr) s = .next ((s.setReg r (s.mem.read a.toNat)).setPc (s.pc + 3)))

/-- R121: wmem. The state's memory is in canonical form, which every step keeps (log 1). -/
def Obligations.WmemStoresTheWord : Prop :=
  ∀ (s : State) (addr val : Operand), s.MemCanonical →
    encode (.wmem addr val) = [16, addr.word, val.word] ∧
    (∀ f, resolve s addr = .error f → exec (.wmem addr val) s = .next (s.raise f)) ∧
    (∀ a f, resolve s addr = .ok a → resolve s val = .error f → exec (.wmem addr val) s = .next (s.raise f)) ∧
    (∀ a v, resolve s addr = .ok a → resolve s val = .ok v → 32768 ≤ a.toNat →
      exec (.wmem addr val) s = .next (s.raise (.invalidAddress a))) ∧
    (∀ a v, resolve s addr = .ok a → resolve s val = .ok v → a.toNat < 32768 →
      ∃ t, exec (.wmem addr val) s = .next t ∧ t.pc = s.pc + 3 ∧ t.regs = s.regs ∧ t.stack = s.stack ∧
        t.inbuf = s.inbuf ∧ t.status = s.status ∧ t.console = s.console ∧
        t.mem.read a.toNat = v ∧ ∀ b, b ≠ a.toNat → t.mem.read b = s.mem.read b)

/-- 20_memory.md R41 (decision D22): a store into the instruction stream is seen by the very next fetch. A wmem that
stores 0, the opcode of halt, to the cell behind itself is followed by a halt there. -/
def Obligations.StoreIsSeenByTheNextFetch : Prop :=
  ∀ (s t : State) (addr val : Operand) (a v : Word), s.MemCanonical → s.isRunning = true →
    resolve s addr = .ok a → resolve s val = .ok v → a = s.pc + 3 → a.toNat < 32768 →
    exec (.wmem addr val) s = .next t →
    memRead t.mem t.pc = .ok v ∧
    (v = 0 → step t = .next (t.terminate .halted)) ∧
    (22 ≤ v.toNat → step t = .next (t.raise (.invalidOpcode v)))

/-- R125: call. -/
def Obligations.CallPushesTheReturnAddress : Prop :=
  ∀ (s : State) (a : Operand),
    encode (.call a) = [17, a.word] ∧
    (∀ f, resolve s a = .error f → exec (.call a) s = .next (s.raise f)) ∧
    (∀ v, resolve s a = .ok v →
      exec (.call a) s = .next ((s.setStack ((s.pc + 2) :: s.stack)).setPc v))

/-- R126: ret. -/
def Obligations.RetPopsOrEndsTheRun : Prop :=
  encode .ret = [18] ∧
  ∀ s : State,
    (s.stack = [] → ∃ t, exec .ret s = .next t ∧ t.status = { s.status with state := .cleanHalt } ∧
      t.pc = s.pc ∧ t.regs = s.regs ∧
      t.mem = s.mem ∧ t.stack = [] ∧ t.inbuf = s.inbuf ∧ t.console = s.console) ∧
    (∀ v rest, s.stack = v :: rest → exec .ret s = .next ((s.setStack rest).setPc v))

/-- R130: out, whether the Console writes or reports that the write failed. -/
def Obligations.OutWritesOneWord : Prop :=
  ∀ (s : State) (a : Operand),
    encode (.out a) = [19, a.word] ∧
    (∀ f, resolve s a = .error f → exec (.out a) s = .next (s.raise f)) ∧
    (∀ v, resolve s a = .ok v → s.console.write (.out v) = none →
      exec (.out a) s = .next (s.raise .consoleFailure)) ∧
    (∀ v c, resolve s a = .ok v → s.console.write (.out v) = some c →
      exec (.out a) s = .next ((s.setConsole c).setPc (s.pc + 2)) ∧ c.outWords = s.console.outWords ++ [v])

/-- 48_io.md, section 1: in, whatever `ConsoleIn()` comes to. A code point once taken stays taken. A buffer that is not
empty is used without touching the console (section 3). The model's choices in it: while no line has arrived the
instruction waits in a next state (log 2); the Console after a faulting `in`, with the prompts written and the lines and
the failing answer taken, is left so (log 12); and a prompt that cannot be written is a failure (log 4). -/
def Obligations.InReadsOneCharacter : Prop :=
  ∀ (s : State) (d : Operand),
    encode (.inp d) = [20, d.word] ∧
    (∀ c rest, s.inbuf = c :: rest → consoleIn s.inbuf s.console = .char c rest s.console) ∧
    (∀ k, consoleIn s.inbuf s.console = .waiting k → exec (.inp d) s = .next (s.setConsole k)) ∧
    (∀ k, consoleIn s.inbuf s.console = .failed k →
      exec (.inp d) s = .next ((s.setConsole k).raise .consoleFailure)) ∧
    (∀ c rest k, consoleIn s.inbuf s.console = .char c rest k → 32768 ≤ c →
      exec (.inp d) s = .next (((s.setInbuf rest).setConsole k).raise (.inputOutOfRange c))) ∧
    (∀ c rest k f, consoleIn s.inbuf s.console = .char c rest k → c < 32768 → checkdest d = .error f →
      exec (.inp d) s = .next (((s.setInbuf rest).setConsole k).raise f)) ∧
    (∀ c rest k r, consoleIn s.inbuf s.console = .char c rest k → c < 32768 → checkdest d = .ok r →
      exec (.inp d) s =
        .next ((((s.setInbuf rest).setConsole k).setReg r (BitVec.ofNat 16 c)).setPc (s.pc + 2)))

/-- 48_io.md, section 3: an `in` on an empty buffer, over any number of blank lines and then a line that is not blank,
when the prompts can be written. Each line read is preceded by one prompt, the blank lines are dropped, the line loses
its carriage returns and keeps its newline, its first character is delivered and the rest queued. The second part is the
`in` that has prompted and waits when its line arrives: it delivers, and no second prompt is written for that line. The
Console's data in the state are the model's choice (logs 2, 3, 4). -/
def Obligations.RefillSkipsBlankLines : Prop :=
  (∀ (s : State) (r : Reg) (blanks rest : List LineAnswer) (cs : List Nat) (c : Nat) (q : List Nat) (p : Nat),
    s.inbuf = [] → s.console.answers = blanks ++ .line cs :: rest →
    p = Spec.promptsBefore s.console.awaiting blanks.length → (∀ n, s.console.writesLeft = some n → p ≤ n) →
    (∀ b ∈ blanks, Spec.isBlankAnswer b = true) → isBlankLine cs = false →
    cs.getLast? = some 10 → cs.filter (fun x => decide (x ≠ 13)) = c :: q → c < 32768 →
    ∃ t, exec (.inp (.register r)) s = .next t ∧ t.pc = s.pc + 2 ∧ t.regs = s.regs.set r (BitVec.ofNat 16 c) ∧
      t.mem = s.mem ∧ t.stack = s.stack ∧ t.status = s.status ∧ t.inbuf = q ∧
      t.console.answers = rest ∧ t.console.awaiting = false ∧
      t.console.writesLeft = s.console.writesLeft.map (fun n => n - p) ∧
      t.console.transcript = s.console.transcript ++ List.replicate p .prompt) ∧
  (∀ (s : State) (r : Reg) (cs : List Nat) (c : Nat) (q : List Nat),
    s.inbuf = [] → s.console.answers = [] → s.console.awaiting = true → isBlankLine cs = false →
    cs.getLast? = some 10 → cs.filter (fun x => decide (x ≠ 13)) = c :: q → c < 32768 →
    ∃ t, exec (.inp (.register r)) (s.supply (.line cs)) = .next t ∧ t.pc = s.pc + 2 ∧
      t.regs = s.regs.set r (BitVec.ofNat 16 c) ∧ t.inbuf = q ∧ t.console.awaiting = false ∧
      t.console.answers = [] ∧ t.console.transcript = s.console.transcript)

/-- 48_io.md R136 and R141 (decision D17; log 2): with nothing but blank lines to come, an `in` waits,
when the prompts can be written. It prompts once
for each of the lines and once for the line it awaits, the core does not change, the machine stays RUNNING, and running
it on changes nothing at all. -/
def Obligations.InWaitsWithoutInput : Prop :=
  ∀ (s t : State) (d : Operand) (n : Nat), s.Runs (.inp d) → s.inbuf = [] →
    (∀ m, s.console.writesLeft = some m →
      Spec.promptsBefore s.console.awaiting s.console.answers.length ≤ m) →
    (∀ b ∈ s.console.answers, Spec.isBlankAnswer b = true) → step s = .next t →
    t.isRunning = true ∧ s.SameCore t ∧ t.inbuf = [] ∧ t.console.answers = [] ∧ t.console.awaiting = true ∧
      t.console.transcript = s.console.transcript ++
        List.replicate (Spec.promptsBefore s.console.awaiting s.console.answers.length) .prompt ∧
      t.console.outWords = s.console.outWords ∧ Sys2Proof.core.run n t = .next t

/-- 48_io.md R135 and R141, and the code of 60_exceptions.md: when an `in` on an empty buffer raises ConsoleFailure, in
terms of the Console. First part: behind any number of blank lines the Console answers the request for a line with a
failure. Second part: the Console does not let all the prompts be written that the blank lines and the line behind them
need; that a failing prompt is a ConsoleFailure is the model's log 4, the data `answers` and `writesLeft` are its logs 3
and 4, and that the failing answer is taken is its log 12. -/
def Obligations.InFailsWhenTheConsoleFails : Prop :=
  ∀ (s : State) (d : Operand) (blanks rest : List LineAnswer),
    s.inbuf = [] → (∀ b ∈ blanks, Spec.isBlankAnswer b = true) →
    (s.console.answers = blanks ++ .failure :: rest →
      (∀ n, s.console.writesLeft = some n → Spec.promptsBefore s.console.awaiting blanks.length ≤ n) →
      ∃ t, exec (.inp d) s = .next t ∧ t.Raised .consoleFailure ∧ s.SameCore t ∧ t.inbuf = [] ∧
        t.console.answers = rest ∧ t.console.outWords = s.console.outWords) ∧
    (∀ n, s.console.answers = blanks ++ rest → s.console.writesLeft = some n →
      n < Spec.promptsBefore s.console.awaiting blanks.length →
      ∃ t, exec (.inp d) s = .next t ∧ t.Raised .consoleFailure ∧ s.SameCore t ∧ t.inbuf = [] ∧
        t.console.outWords = s.console.outWords)

/-! ### The host's interface -/

/-- The host's placement of an instruction (log 8): the very next step runs exactly the instruction decoded. -/
def Obligations.PlacedInstructionRunsNext : Prop :=
  ∀ (s : State) (nbits w : Nat) (i : Instr), s.MemCanonical → decodeTableWord nbits w = some i →
    (s.withFetchWord nbits w).isRunning = true ∧
    step (s.withFetchWord nbits w) = exec i (s.withFetchWord nbits w)
end

