-- ==== Sys2Proof/Laws/Memory.lean ====
section
/-! SUPPORT. The laws of memory: a read after a write, and that every operation keeps the canonical form. -/

namespace Sys2Proof.Machine

/-! ### Reads -/

@[simp] theorem Memory.read_nil (a : Nat) : Memory.read [] a = 0 := rfl

theorem Memory.read_cons (a b : Nat) (w : Word) (m : Memory) :
    Memory.read ((b, w) :: m) a = if a = b then w else Memory.read m a := rfl

/-- In a canonical memory no cell below the bound is listed. -/
theorem Memory.read_below {lo a : Nat} {m : Memory} (h : Memory.wfFrom lo m = true) (ha : a < lo) :
    m.read a = 0 := by
  induction m generalizing lo with
  | nil => rfl
  | cons c m ih =>
    obtain ⟨b, w⟩ := c
    simp only [Memory.wfFrom, Bool.and_eq_true, decide_eq_true_eq] at h
    obtain ⟨⟨⟨hb, _⟩, _⟩, hm⟩ := h
    rw [Memory.read_cons, if_neg (by omega)]
    exact ih hm (by omega)

/-- In a canonical memory no cell from 32768 upward is listed (R38). -/
theorem Memory.read_above {lo a : Nat} {m : Memory} (h : Memory.wfFrom lo m = true) (ha : 32768 ≤ a) :
    m.read a = 0 := by
  induction m generalizing lo with
  | nil => rfl
  | cons c m ih =>
    obtain ⟨b, w⟩ := c
    simp only [Memory.wfFrom, Bool.and_eq_true, decide_eq_true_eq] at h
    obtain ⟨⟨⟨_, hb⟩, _⟩, hm⟩ := h
    rw [Memory.read_cons, if_neg (by omega)]
    exact ih hm

theorem Memory.read_put_same {lo a : Nat} {v : Word} {m : Memory} (h : Memory.wfFrom lo m = true) (ha : a < lo) :
    (Memory.put a v m).read a = v := by
  unfold Memory.put
  split
  · rename_i hv; rw [Memory.read_below h ha]; exact hv.symm
  · simp [Memory.read_cons]

theorem Memory.read_put_other {a b : Nat} (v : Word) (m : Memory) (h : b ≠ a) :
    (Memory.put a v m).read b = m.read b := by
  unfold Memory.put
  split
  · rfl
  · simp [Memory.read_cons, h]

/-- A read of the cell just written gives the word written (R34). -/
theorem Memory.read_write_same {lo a : Nat} {v : Word} {m : Memory} (h : Memory.wfFrom lo m = true) :
    (m.write a v).read a = v := by
  induction m generalizing lo with
  | nil => exact Memory.read_put_same (lo := a + 1) rfl (by omega)
  | cons c m ih =>
    obtain ⟨b, w⟩ := c
    simp only [Memory.wfFrom, Bool.and_eq_true, decide_eq_true_eq] at h
    obtain ⟨⟨⟨_, hb⟩, hw⟩, hm⟩ := h
    simp only [Memory.write]
    split
    · refine Memory.read_put_same (lo := b) ?_ ‹_›
      simp [Memory.wfFrom, hb, hw, hm]
    · split
      · rename_i _ hab; subst hab; exact Memory.read_put_same hm (by omega)
      · rw [Memory.read_cons, if_neg ‹_›]; exact ih hm

/-- A write leaves every other cell as it was (R34). -/
theorem Memory.read_write_other {a b : Nat} (v : Word) (m : Memory) (h : b ≠ a) :
    (m.write a v).read b = m.read b := by
  induction m with
  | nil => exact Memory.read_put_other v [] h
  | cons c m ih =>
    obtain ⟨d, w⟩ := c
    simp only [Memory.write]
    split
    · exact Memory.read_put_other v _ h
    · split
      · rename_i _ had; subst had
        rw [Memory.read_put_other v m h, Memory.read_cons, if_neg h]
      · simp only [Memory.read_cons, ih]

/-! ### The canonical form -/

theorem Memory.wfFrom_mono {lo hi : Nat} {m : Memory} (h : Memory.wfFrom hi m = true) (hl : lo ≤ hi) :
    Memory.wfFrom lo m = true := by
  cases m with
  | nil => rfl
  | cons c m =>
    obtain ⟨b, w⟩ := c
    simp only [Memory.wfFrom, Bool.and_eq_true, decide_eq_true_eq] at h ⊢
    exact ⟨⟨⟨by omega, h.1.1.2⟩, h.1.2⟩, h.2⟩

theorem Memory.put_wfFrom {lo a : Nat} {v : Word} {m : Memory} (hm : Memory.wfFrom (a + 1) m = true) (hlo : lo ≤ a)
    (ha : a < 32768) : Memory.wfFrom lo (Memory.put a v m) = true := by
  unfold Memory.put
  split
  · exact Memory.wfFrom_mono hm (by omega)
  · simp [Memory.wfFrom, *]

theorem Memory.write_wfFrom {lo a : Nat} {v : Word} {m : Memory} (h : Memory.wfFrom lo m = true) (hlo : lo ≤ a)
    (ha : a < 32768) : Memory.wfFrom lo (m.write a v) = true := by
  induction m generalizing lo with
  | nil => exact Memory.put_wfFrom rfl hlo ha
  | cons c m ih =>
    obtain ⟨b, w⟩ := c
    simp only [Memory.wfFrom, Bool.and_eq_true, decide_eq_true_eq] at h
    obtain ⟨⟨⟨hb, hb'⟩, hw⟩, hm⟩ := h
    simp only [Memory.write]
    split
    · refine Memory.put_wfFrom ?_ hlo ha
      simp only [Memory.wfFrom, Bool.and_eq_true, decide_eq_true_eq]
      exact ⟨⟨⟨by omega, hb'⟩, hw⟩, hm⟩
    · split
      · rename_i _ hab; subst hab; exact Memory.put_wfFrom hm hlo ha
      · simp only [Memory.wfFrom, Bool.and_eq_true, decide_eq_true_eq]
        exact ⟨⟨⟨hb, hb'⟩, hw⟩, ih hm (by omega)⟩

/-- A write to a cell that exists keeps the canonical form. -/
theorem Memory.write_wf {a : Nat} {v : Word} {m : Memory} (h : m.wf = true) (ha : a < 32768) :
    (m.write a v).wf = true := Memory.write_wfFrom h (Nat.zero_le a) ha

/-- `MemWrite` keeps the canonical form. -/
theorem memWrite_wf {m m' : Memory} {a v : Word} (h : m.wf = true) (hw : memWrite m a v = .ok m') :
    m'.wf = true := by
  unfold memWrite at hw
  split at hw
  · cases hw; exact Memory.write_wf h ‹_›
  · cases hw

/-- Placing words that fit keeps the canonical form. -/
theorem Memory.writeWords_wf {ws : List Word} {a : Nat} {m : Memory} (h : m.wf = true) (ha : a + ws.length ≤ 32768) :
    (m.writeWords a ws).wf = true := by
  induction ws generalizing a m with
  | nil => exact h
  | cons w ws ih =>
    simp only [List.length_cons] at ha
    exact ih (Memory.write_wf h (by omega)) (by omega)

theorem Memory.ofWords_wfFrom {ws : List Word} {a lo : Nat} (ha : a + ws.length ≤ 32768) (hlo : lo ≤ a) :
    Memory.wfFrom lo (Memory.ofWords a ws) = true := by
  induction ws generalizing a lo with
  | nil => rfl
  | cons w ws ih =>
    simp only [List.length_cons] at ha
    exact Memory.put_wfFrom (ih (by omega) (by omega)) hlo (by omega)

/-- The memory of an image that fits is canonical. -/
theorem Memory.ofWords_wf {ws : List Word} (h : ws.length ≤ 32768) : (Memory.ofWords 0 ws).wf = true :=
  Memory.ofWords_wfFrom (by omega) (Nat.le_refl 0)

/-- Cell `a + k` of the memory of `ws` from `a` upward is word `k` (R180). -/
theorem Memory.read_ofWords {ws : List Word} {a k : Nat} (ha : a + ws.length ≤ 32768) (hk : k < ws.length) :
    (Memory.ofWords a ws).read (a + k) = ws[k] := by
  induction ws generalizing a k with
  | nil => simp at hk
  | cons w ws ih =>
    simp only [List.length_cons] at ha hk
    cases k with
    | zero =>
      exact Memory.read_put_same (Memory.ofWords_wfFrom (lo := a + 1) (by omega) (Nat.le_refl _)) (by omega)
    | succ k =>
      simp only [Memory.ofWords, List.getElem_cons_succ]
      rw [Memory.read_put_other _ _ (by omega)]
      have := ih (a := a + 1) (k := k) (by omega) (by omega)
      rwa [show a + 1 + k = a + (k + 1) by omega] at this

/-- Words placed elsewhere leave a cell alone. -/
theorem Memory.read_writeWords_other {ws : List Word} {a b : Nat} (m : Memory) (h : b < a ∨ a + ws.length ≤ b) :
    (m.writeWords a ws).read b = m.read b := by
  induction ws generalizing a m with
  | nil => rfl
  | cons w ws ih =>
    simp only [List.length_cons] at h
    simp only [Memory.writeWords]
    rw [ih _ (by omega), Memory.read_write_other _ _ (by omega)]

/-- Cell `a + k` after placing `ws` from `a` upward holds word `k`. -/
theorem Memory.read_writeWords {ws : List Word} {a k : Nat} {m : Memory} (hm : m.wf = true)
    (ha : a + ws.length ≤ 32768) (hk : k < ws.length) : (m.writeWords a ws).read (a + k) = ws[k] := by
  induction ws generalizing a k m with
  | nil => simp at hk
  | cons w ws ih =>
    simp only [List.length_cons] at ha hk
    cases k with
    | zero =>
      simp only [Memory.writeWords]
      rw [Memory.read_writeWords_other _ (by omega)]
      exact Memory.read_write_same hm
    | succ k =>
      simp only [Memory.writeWords, List.getElem_cons_succ]
      rw [show a + (k + 1) = a + 1 + k by omega]
      exact ih (Memory.write_wf hm (by omega)) (by omega) (by omega)

end Sys2Proof.Machine
end

