-- ==== Sys2Proof/Laws/State.lean ====
section
/-! SUPPORT. One lemma per field and per update of the state, and the laws of the register file. -/

namespace Sys2Proof.Machine

/-! ### `setReg` -/

@[simp] theorem State.setReg_regs (s : State) (r : Reg) (v : Word) : (s.setReg r v).regs = s.regs.set r v := rfl
@[simp] theorem State.setReg_pc (s : State) (r : Reg) (v : Word) : (s.setReg r v).pc = s.pc := rfl
@[simp] theorem State.setReg_mem (s : State) (r : Reg) (v : Word) : (s.setReg r v).mem = s.mem := rfl
@[simp] theorem State.setReg_stack (s : State) (r : Reg) (v : Word) : (s.setReg r v).stack = s.stack := rfl
@[simp] theorem State.setReg_inbuf (s : State) (r : Reg) (v : Word) : (s.setReg r v).inbuf = s.inbuf := rfl
@[simp] theorem State.setReg_status (s : State) (r : Reg) (v : Word) : (s.setReg r v).status = s.status := rfl
@[simp] theorem State.setReg_console (s : State) (r : Reg) (v : Word) : (s.setReg r v).console = s.console := rfl

/-! ### `setPc` -/

@[simp] theorem State.setPc_regs (s : State) (t : Word) : (s.setPc t).regs = s.regs := rfl
@[simp] theorem State.setPc_pc (s : State) (t : Word) : (s.setPc t).pc = t := rfl
@[simp] theorem State.setPc_mem (s : State) (t : Word) : (s.setPc t).mem = s.mem := rfl
@[simp] theorem State.setPc_stack (s : State) (t : Word) : (s.setPc t).stack = s.stack := rfl
@[simp] theorem State.setPc_inbuf (s : State) (t : Word) : (s.setPc t).inbuf = s.inbuf := rfl
@[simp] theorem State.setPc_status (s : State) (t : Word) : (s.setPc t).status = s.status := rfl
@[simp] theorem State.setPc_console (s : State) (t : Word) : (s.setPc t).console = s.console := rfl

/-! ### `advance` -/

@[simp] theorem State.advance_regs (s : State) (n : Nat) : (s.advance n).regs = s.regs := rfl
@[simp] theorem State.advance_pc (s : State) (n : Nat) : (s.advance n).pc = s.pc + BitVec.ofNat 16 (1 + n) := rfl
@[simp] theorem State.advance_mem (s : State) (n : Nat) : (s.advance n).mem = s.mem := rfl
@[simp] theorem State.advance_stack (s : State) (n : Nat) : (s.advance n).stack = s.stack := rfl
@[simp] theorem State.advance_inbuf (s : State) (n : Nat) : (s.advance n).inbuf = s.inbuf := rfl
@[simp] theorem State.advance_status (s : State) (n : Nat) : (s.advance n).status = s.status := rfl
@[simp] theorem State.advance_console (s : State) (n : Nat) : (s.advance n).console = s.console := rfl

/-! ### `setMem` -/

@[simp] theorem State.setMem_regs (s : State) (m : Memory) : (s.setMem m).regs = s.regs := rfl
@[simp] theorem State.setMem_pc (s : State) (m : Memory) : (s.setMem m).pc = s.pc := rfl
@[simp] theorem State.setMem_mem (s : State) (m : Memory) : (s.setMem m).mem = m := rfl
@[simp] theorem State.setMem_stack (s : State) (m : Memory) : (s.setMem m).stack = s.stack := rfl
@[simp] theorem State.setMem_inbuf (s : State) (m : Memory) : (s.setMem m).inbuf = s.inbuf := rfl
@[simp] theorem State.setMem_status (s : State) (m : Memory) : (s.setMem m).status = s.status := rfl
@[simp] theorem State.setMem_console (s : State) (m : Memory) : (s.setMem m).console = s.console := rfl

/-! ### `setStack` -/

@[simp] theorem State.setStack_regs (s : State) (st : List Word) : (s.setStack st).regs = s.regs := rfl
@[simp] theorem State.setStack_pc (s : State) (st : List Word) : (s.setStack st).pc = s.pc := rfl
@[simp] theorem State.setStack_mem (s : State) (st : List Word) : (s.setStack st).mem = s.mem := rfl
@[simp] theorem State.setStack_stack (s : State) (st : List Word) : (s.setStack st).stack = st := rfl
@[simp] theorem State.setStack_inbuf (s : State) (st : List Word) : (s.setStack st).inbuf = s.inbuf := rfl
@[simp] theorem State.setStack_status (s : State) (st : List Word) : (s.setStack st).status = s.status := rfl
@[simp] theorem State.setStack_console (s : State) (st : List Word) : (s.setStack st).console = s.console := rfl

/-! ### `push` -/

@[simp] theorem State.push_regs (s : State) (v : Word) : (s.push v).regs = s.regs := rfl
@[simp] theorem State.push_pc (s : State) (v : Word) : (s.push v).pc = s.pc := rfl
@[simp] theorem State.push_mem (s : State) (v : Word) : (s.push v).mem = s.mem := rfl
@[simp] theorem State.push_stack (s : State) (v : Word) : (s.push v).stack = v :: s.stack := rfl
@[simp] theorem State.push_inbuf (s : State) (v : Word) : (s.push v).inbuf = s.inbuf := rfl
@[simp] theorem State.push_status (s : State) (v : Word) : (s.push v).status = s.status := rfl
@[simp] theorem State.push_console (s : State) (v : Word) : (s.push v).console = s.console := rfl

/-! ### `setInbuf` -/

@[simp] theorem State.setInbuf_regs (s : State) (cs : List Nat) : (s.setInbuf cs).regs = s.regs := rfl
@[simp] theorem State.setInbuf_pc (s : State) (cs : List Nat) : (s.setInbuf cs).pc = s.pc := rfl
@[simp] theorem State.setInbuf_mem (s : State) (cs : List Nat) : (s.setInbuf cs).mem = s.mem := rfl
@[simp] theorem State.setInbuf_stack (s : State) (cs : List Nat) : (s.setInbuf cs).stack = s.stack := rfl
@[simp] theorem State.setInbuf_inbuf (s : State) (cs : List Nat) : (s.setInbuf cs).inbuf = cs := rfl
@[simp] theorem State.setInbuf_status (s : State) (cs : List Nat) : (s.setInbuf cs).status = s.status := rfl
@[simp] theorem State.setInbuf_console (s : State) (cs : List Nat) : (s.setInbuf cs).console = s.console := rfl

/-! ### `setConsole` -/

@[simp] theorem State.setConsole_regs (s : State) (c : Console) : (s.setConsole c).regs = s.regs := rfl
@[simp] theorem State.setConsole_pc (s : State) (c : Console) : (s.setConsole c).pc = s.pc := rfl
@[simp] theorem State.setConsole_mem (s : State) (c : Console) : (s.setConsole c).mem = s.mem := rfl
@[simp] theorem State.setConsole_stack (s : State) (c : Console) : (s.setConsole c).stack = s.stack := rfl
@[simp] theorem State.setConsole_inbuf (s : State) (c : Console) : (s.setConsole c).inbuf = s.inbuf := rfl
@[simp] theorem State.setConsole_status (s : State) (c : Console) : (s.setConsole c).status = s.status := rfl
@[simp] theorem State.setConsole_console (s : State) (c : Console) : (s.setConsole c).console = c := rfl

/-! ### `setStatus` -/

@[simp] theorem State.setStatus_regs (s : State) (st : Status) : (s.setStatus st).regs = s.regs := rfl
@[simp] theorem State.setStatus_pc (s : State) (st : Status) : (s.setStatus st).pc = s.pc := rfl
@[simp] theorem State.setStatus_mem (s : State) (st : Status) : (s.setStatus st).mem = s.mem := rfl
@[simp] theorem State.setStatus_stack (s : State) (st : Status) : (s.setStatus st).stack = s.stack := rfl
@[simp] theorem State.setStatus_inbuf (s : State) (st : Status) : (s.setStatus st).inbuf = s.inbuf := rfl
@[simp] theorem State.setStatus_status (s : State) (st : Status) : (s.setStatus st).status = st := rfl
@[simp] theorem State.setStatus_console (s : State) (st : Status) : (s.setStatus st).console = s.console := rfl

/-! ### `raise` -/

@[simp] theorem State.raise_regs (s : State) (f : Raise) : (s.raise f).regs = s.regs := rfl
@[simp] theorem State.raise_pc (s : State) (f : Raise) : (s.raise f).pc = s.pc := rfl
@[simp] theorem State.raise_mem (s : State) (f : Raise) : (s.raise f).mem = s.mem := rfl
@[simp] theorem State.raise_stack (s : State) (f : Raise) : (s.raise f).stack = s.stack := rfl
@[simp] theorem State.raise_inbuf (s : State) (f : Raise) : (s.raise f).inbuf = s.inbuf := rfl
@[simp] theorem State.raise_status (s : State) (f : Raise) : (s.raise f).status = { state := .fault, cause := f.code, info := f.info } := rfl
@[simp] theorem State.raise_console (s : State) (f : Raise) : (s.raise f).console = s.console := rfl

/-! ### `terminate` -/

@[simp] theorem State.terminate_regs (s : State) (st : RunState) : (s.terminate st).regs = s.regs := rfl
@[simp] theorem State.terminate_pc (s : State) (st : RunState) : (s.terminate st).pc = s.pc := rfl
@[simp] theorem State.terminate_mem (s : State) (st : RunState) : (s.terminate st).mem = s.mem := rfl
@[simp] theorem State.terminate_stack (s : State) (st : RunState) : (s.terminate st).stack = s.stack := rfl
@[simp] theorem State.terminate_inbuf (s : State) (st : RunState) : (s.terminate st).inbuf = s.inbuf := rfl
@[simp] theorem State.terminate_status (s : State) (st : RunState) : (s.terminate st).status = { s.status with state := st } := rfl
@[simp] theorem State.terminate_console (s : State) (st : RunState) : (s.terminate st).console = s.console := rfl

/-! ### The register file -/

@[simp] theorem RegFile.get_set_same (f : RegFile) (r : Reg) (v : Word) : (f.set r v).get r = v := by
  cases r <;> rfl

theorem RegFile.get_set_other (f : RegFile) {r q : Reg} (v : Word) (h : q ≠ r) : (f.set r v).get q = f.get q := by
  cases r <;> cases q <;> first | rfl | exact absurd rfl h

/-- Two register files with equal registers are equal. -/
theorem RegFile.ext_get {f g : RegFile} (h : ∀ r, f.get r = g.get r) : f = g := by
  cases f; cases g
  simp only [RegFile.mk.injEq]
  exact ⟨h .r0, h .r1, h .r2, h .r3, h .r4, h .r5, h .r6, h .r7⟩

@[simp] theorem RegFile.get_reset (r : Reg) : RegFile.reset.get r = 0 := by cases r <;> rfl

end Sys2Proof.Machine
end

