-- ==== Sys2Proof/Laws/Ops.lean ====
section
/-! SUPPORT. For each shared operation, once, everything it can do. -/

namespace Sys2Proof.Machine

/-! ### Except -/

@[simp] theorem except_pure {α : Type} (x : α) : (pure x : Except Raise α) = .ok x := rfl
@[simp] theorem except_throw {α : Type} (f : Raise) : (throw f : Except Raise α) = .error f := rfl
@[simp] theorem except_bind_ok {α β : Type} (x : α) (g : α → Except Raise β) : ((Except.ok x : Except Raise α) >>= g) = g x := rfl
@[simp] theorem except_bind_error {α β : Type} (f : Raise) (g : α → Except Raise β) :
    ((Except.error f : Except Raise α) >>= g) = .error f := rfl

/-- A sequence that completes: its first part gives a value from which the rest completes. -/
theorem bind_eq_ok {α β : Type} {x : Except Raise α} {g : α → Except Raise β} {b : β} :
    x >>= g = .ok b ↔ ∃ a, x = .ok a ∧ g a = .ok b := by
  cases x <;> simp

/-- A sequence that raises: its first part raises, or the rest does. -/
theorem bind_eq_error {α β : Type} {x : Except Raise α} {g : α → Except Raise β} {f : Raise} :
    x >>= g = .error f ↔ x = .error f ∨ ∃ a, x = .ok a ∧ g a = .error f := by
  cases x <;> simp

/-! ### The end of an instruction -/

@[simp] theorem State.commit_ok (s t : State) : s.commit (.ok t) = .next t := rfl
@[simp] theorem State.commit_error (s : State) (f : Raise) : s.commit (.error f) = .next (s.raise f) := rfl

/-- An instruction ends with its effects, or in fault entry at the state before it (R75, R78). -/
theorem commit_eq_next {s t : State} {r : Except Raise State} :
    s.commit r = .next t ↔ r = .ok t ∨ ∃ f, r = .error f ∧ t = s.raise f := by
  cases r <;> simp [State.commit, eq_comm]

@[simp] theorem State.isRunning_iff (s : State) : s.isRunning = true ↔ s.status.state = .running := by
  simp [State.isRunning]

/-! ### Operands -/

/-- `resolve` raises only InvalidOperand, and only for a word of class INVALID (R73). -/
theorem resolve_eq_error {s : State} {a : Operand} {f : Raise} :
    resolve s a = .error f ↔ ∃ w, a = .invalid w ∧ f = .invalidOperand w := by
  cases a <;> simp [resolve, eq_comm]

/-- `resolve` gives the literal or the content of the register (R73). -/
theorem resolve_eq_ok {s : State} {a : Operand} {v : Word} :
    resolve s a = .ok v ↔ (∃ l, a = .literal l ∧ v = l.setWidth 16) ∨ ∃ r, a = .register r ∧ v = s.regs.get r := by
  cases a <;> simp [resolve, eq_comm]

/-- `checkdest` accepts exactly the register references (R74). -/
theorem checkdest_eq_ok {d : Operand} {r : Reg} : checkdest d = .ok r ↔ d = .register r := by
  cases d <;> simp [checkdest]

/-- `checkdest` raises only InvalidDestination, with the operand word (R74). -/
theorem checkdest_eq_error {d : Operand} {f : Raise} :
    checkdest d = .error f ↔ (∀ r, d ≠ .register r) ∧ f = .invalidDestination d.word := by
  cases d <;> simp [checkdest, Operand.word, eq_comm]

/-- `store` writes the register it names (R74). -/
theorem store_eq_ok {s t : State} {d : Operand} {v : Word} :
    store s d v = .ok t ↔ ∃ r, d = .register r ∧ t = s.setReg r v := by
  cases d <;> simp [store, checkdest, eq_comm]

theorem store_eq_error {s : State} {d : Operand} {v : Word} {f : Raise} :
    store s d v = .error f ↔ (∀ r, d ≠ .register r) ∧ f = .invalidDestination d.word := by
  simp [store, bind_eq_error, checkdest_eq_error]

/-! ### Memory access -/

theorem memRead_eq_ok {m : Memory} {a v : Word} :
    memRead m a = .ok v ↔ a.toNat < 32768 ∧ v = m.read a.toNat := by
  unfold memRead; split <;> simp_all [eq_comm]

theorem memRead_eq_error {m : Memory} {a : Word} {f : Raise} :
    memRead m a = .error f ↔ 32768 ≤ a.toNat ∧ f = .invalidAddress a := by
  unfold memRead; split <;> simp_all [eq_comm]

theorem memWrite_eq_ok {m m' : Memory} {a v : Word} :
    memWrite m a v = .ok m' ↔ a.toNat < 32768 ∧ m' = m.write a.toNat v := by
  unfold memWrite; split <;> simp_all [eq_comm]

theorem memWrite_eq_error {m : Memory} {a v : Word} {f : Raise} :
    memWrite m a v = .error f ↔ 32768 ≤ a.toNat ∧ f = .invalidAddress a := by
  unfold memWrite; split <;> simp_all [eq_comm]

/-! ### Fetch -/

/-- The operand words are the cells from `a` upward, all of which exist (R71). -/
theorem fetchOperands_eq_ok {m : Memory} {a : Word} {n : Nat} {ws : List Word} (ha : a.toNat ≤ 32768)
    (h : fetchOperands m a n = .ok ws) :
    a.toNat + n ≤ 32768 ∧ ws = (List.range n).map fun k => m.read (a.toNat + k) := by
  induction n generalizing a ws with
  | zero => simp only [fetchOperands, Except.ok.injEq] at h; subst h; simpa using ha
  | succ n ih =>
    simp only [fetchOperands, bind_eq_ok, memRead_eq_ok, except_pure, Except.ok.injEq] at h
    obtain ⟨w, ⟨hlt, rfl⟩, ws', hws, rfl⟩ := h
    have h1 : (a + 1).toNat = a.toNat + 1 := by simp [BitVec.toNat_add]; omega
    obtain ⟨hn, rfl⟩ := ih (by omega) hws
    refine ⟨by omega, ?_⟩
    rw [List.range_succ_eq_map, List.map_cons, List.map_map]
    simp only [h1, Nat.add_zero, List.cons.injEq, true_and]
    refine List.map_congr_left fun k _ => ?_
    simp only [Function.comp]
    congr 1; omega

/-- An operand fetch faults exactly at the first cell that does not exist, 32768 (R71). -/
theorem fetchOperands_eq_error {m : Memory} {a : Word} {n : Nat} {f : Raise} (ha : a.toNat ≤ 32768)
    (h : fetchOperands m a n = .error f) : 32768 < a.toNat + n ∧ f = .invalidAddress 32768 := by
  induction n generalizing a with
  | zero => simp [fetchOperands] at h
  | succ n ih =>
    simp only [fetchOperands, bind_eq_error, memRead_eq_error, memRead_eq_ok, except_pure, reduceCtorEq, and_false,
      exists_false, or_false] at h
    obtain ⟨hge, rfl⟩ | ⟨w, ⟨hlt, -⟩, h⟩ := h
    · have : a = 32768 := by apply BitVec.eq_of_toNat_eq; simp; omega
      subst this; exact ⟨by simp, rfl⟩
    · have h1 : (a + 1).toNat = a.toNat + 1 := by simp [BitVec.toNat_add]; omega
      obtain ⟨hn, rfl⟩ := ih (by omega) h
      exact ⟨by omega, rfl⟩

/-- What phases 1 to 3 of the cycle give (R70 to R72): the instruction whose words stand from IP upward, all of them
in cells that exist. -/
theorem fetchInstr_eq_ok {s : State} {i : Instr} (h : fetchInstr s = .ok i) :
    ∃ o, decodeOpcode (s.mem.read s.pc.toNat) = some o ∧ s.pc.toNat + 1 + o.operandCount ≤ 32768 ∧
      i = assemble o ((List.range o.operandCount).map fun k => s.mem.read (s.pc.toNat + 1 + k)) := by
  simp only [fetchInstr, bind_eq_ok, memRead_eq_ok] at h
  obtain ⟨w, ⟨hlt, rfl⟩, h⟩ := h
  split at h
  · simp at h
  · rename_i o ho
    simp only [bind_eq_ok, except_pure, Except.ok.injEq] at h
    obtain ⟨ws, hws, rfl⟩ := h
    have h1 : (s.pc + 1).toNat = s.pc.toNat + 1 := by simp [BitVec.toNat_add]; omega
    obtain ⟨hn, rfl⟩ := fetchOperands_eq_ok (by omega) hws
    exact ⟨o, ho, by omega, by rw [h1]⟩

/-- Why phases 1 to 3 of the cycle raise (R70 to R72). -/
theorem fetchInstr_eq_error {s : State} {f : Raise} (h : fetchInstr s = .error f) :
    (32768 ≤ s.pc.toNat ∧ f = .invalidAddress s.pc) ∨
    (s.pc.toNat < 32768 ∧ decodeOpcode (s.mem.read s.pc.toNat) = none ∧ f = .invalidOpcode (s.mem.read s.pc.toNat)) ∨
    (∃ o, s.pc.toNat < 32768 ∧ decodeOpcode (s.mem.read s.pc.toNat) = some o ∧
      32768 < s.pc.toNat + 1 + o.operandCount ∧ f = .invalidAddress 32768) := by
  simp only [fetchInstr, bind_eq_error, memRead_eq_error, memRead_eq_ok] at h
  obtain h | ⟨w, ⟨hlt, rfl⟩, h⟩ := h
  · exact .inl h
  · split at h
    · rename_i ho
      simp only [except_throw, Except.error.injEq] at h
      exact .inr (.inl ⟨hlt, ho, h.symm⟩)
    · rename_i o ho
      simp only [bind_eq_error, except_pure, reduceCtorEq, and_false, exists_false, or_false] at h
      have h1 : (s.pc + 1).toNat = s.pc.toNat + 1 := by simp [BitVec.toNat_add]; omega
      obtain ⟨hn, rfl⟩ := fetchOperands_eq_error (by omega) h
      exact .inr (.inr ⟨o, hlt, ho, by omega, rfl⟩)

/-- What a step can do: idle when it has terminated, fault entry in phases 1 to 3, or the fetched instruction. -/
theorem step_cases (s : State) :
    (s.status.state ≠ .running ∧ step s = .next s) ∨
    (s.status.state = .running ∧ ∃ f, fetchInstr s = .error f ∧ step s = .next (s.raise f)) ∨
    (s.status.state = .running ∧ ∃ i, fetchInstr s = .ok i ∧ step s = exec i s) := by
  unfold step
  split
  · rename_i h
    rw [State.isRunning_iff] at h
    cases hf : fetchInstr s with
    | ok i => exact .inr (.inr ⟨h, i, rfl, rfl⟩)
    | error f => exact .inr (.inl ⟨h, f, rfl, rfl⟩)
  · rename_i h
    rw [State.isRunning_iff] at h
    exact .inl ⟨h, rfl⟩

end Sys2Proof.Machine
end

