-- ==== Sys2Proof/Laws/Exec.lean ====
section
/-! SUPPORT. What each meaning, and each shape of meaning, can do when it answers a next state. -/

namespace Sys2Proof.Machine

/-- The words a refill puts into the buffer hold no carriage return (R138). -/
theorem queuedLine_no_return (cs : List Nat) : 13 ∉ queuedLine cs := by
  unfold queuedLine stripReturns
  split
  · simp
  · split <;> simp

/-- What one write to the console can do (R132, R141). -/
theorem write_eq_some {c c' : Console} {e : ConsoleEvent} (h : c.write e = some c') :
    c'.transcript = c.transcript ++ [e] ∧ c'.answers = c.answers ∧ c'.awaiting = c.awaiting := by
  unfold Console.write at h
  split at h <;> simp at h <;> subst h <;> simp

/-- The prompt is written at most once for a line (R135, R142), and it is no word of the OUT interface. -/
theorem requestLine_eq_some {c c' : Console} (h : c.requestLine = some c') :
    c'.awaiting = true ∧ c'.answers = c.answers ∧ c'.outWords = c.outWords := by
  unfold Console.requestLine at h
  split at h
  · simp at h; subst h; exact ⟨‹_›, rfl, rfl⟩
  · simp only [Option.map_eq_some_iff] at h
    obtain ⟨k, hk, rfl⟩ := h
    obtain ⟨ht, ha, -⟩ := write_eq_some hk
    exact ⟨rfl, ha, by simp [Console.outWords, ht]⟩

/-- What the refill loop can do: it never changes the OUT words, and a character it delivers heads a queued line. -/
theorem refill_cases (as : List LineAnswer) (c : Console) :
    (∃ k, refill as c = .waiting k ∧ k.outWords = c.outWords ∧ k.answers = [] ∧ k.awaiting = true) ∨
    (∃ k, refill as c = .failed k ∧ k.outWords = c.outWords) ∨
    (∃ x xs k cs, refill as c = .char x xs k ∧ k.outWords = c.outWords ∧ queuedLine cs = x :: xs) := by
  induction as generalizing c with
  | nil =>
    unfold refill
    cases hr : c.requestLine with
    | none => exact .inr (.inl ⟨c, rfl, rfl⟩)
    | some c' =>
      obtain ⟨hw, -, ho⟩ := requestLine_eq_some hr
      exact .inl ⟨_, rfl, ho, rfl, hw⟩
  | cons a as ih =>
    unfold refill
    cases hr : c.requestLine with
    | none => exact .inr (.inl ⟨c, rfl, rfl⟩)
    | some c' =>
      obtain ⟨-, -, ho⟩ := requestLine_eq_some hr
      cases a with
      | failure => exact .inr (.inl ⟨_, rfl, ho⟩)
      | line cs =>
        cases hq : queuedLine cs with
        | nil =>
          simp only [hq]
          obtain ⟨k, hk, h1, h2⟩ | ⟨k, hk, h1⟩ | ⟨x, xs, k, ds, hk, h1, h2⟩ :=
            ih { c' with answers := as, awaiting := false }
          · exact .inl ⟨k, hk, h1.trans ho, h2⟩
          · exact .inr (.inl ⟨k, hk, h1.trans ho⟩)
          · exact .inr (.inr ⟨x, xs, k, ds, hk, h1.trans ho, h2⟩)
        | cons x xs =>
          simp only [hq]
          exact .inr (.inr ⟨x, xs, _, cs, rfl, ho, hq⟩)

/-- A refill asks for its line first, so a Console whose line is awaited and one that has yet to prompt come to the
same (R135). -/
theorem refill_of_requestLine {c c' : Console} (h : c.requestLine = some c') (as : List LineAnswer) :
    refill as c = refill as c' := by
  have h' : c'.requestLine = some c' := by simp [Console.requestLine, (requestLine_eq_some h).1]
  unfold refill
  rw [h, h']

/-- A request for a line that is not awaited writes one prompt (R135, R142), if the Console lets it (R141). -/
theorem requestLine_prompts {c : Console} (h : c.awaiting = false) (hw : c.writesLeft ≠ some 0) :
    c.requestLine = some
      { c with awaiting := true, writesLeft := c.writesLeft.map (· - 1), transcript := c.transcript ++ [.prompt] } := by
  unfold Console.requestLine Console.write
  rcases hn : c.writesLeft with _ | _ | n <;> simp_all

/-- The refill loop over blank lines (R135, R137): each is dropped, and one prompt is written for each line and for the
line behind them, but none for the line already awaited. -/
theorem refill_blank_lines (blanks as : List LineAnswer)
    (hb : ∀ b ∈ blanks, ∃ cs, b = .line cs ∧ isBlankLine cs = true) (c : Console) (p : Nat)
    (hp : p = if c.awaiting then blanks.length else blanks.length + 1)
    (hw : ∀ n, c.writesLeft = some n → p ≤ n) :
    ∃ c' : Console, refill (blanks ++ as) c = refill as c' ∧ c'.awaiting = true ∧
      c'.writesLeft = c.writesLeft.map (· - p) ∧ c'.transcript = c.transcript ++ List.replicate p .prompt := by
  have first : ∀ (q : Nat) (k : Console), q = (if k.awaiting then 0 else 1) → (∀ n, k.writesLeft = some n → q ≤ n) →
      ∃ k' : Console, k.requestLine = some k' ∧ k'.awaiting = true ∧ k'.writesLeft = k.writesLeft.map (· - q) ∧
        k'.transcript = k.transcript ++ List.replicate q .prompt := by
    intro q k hq hn
    cases ha : k.awaiting <;> simp only [ha, if_true, Bool.false_eq_true, if_false] at hq <;> subst hq
    · exact ⟨_, requestLine_prompts ha fun h => absurd (hn 0 h) (by decide), rfl, rfl, rfl⟩
    · exact ⟨k, by simp [Console.requestLine, ha], ha, by simp, by simp⟩
  induction blanks generalizing c p with
  | nil =>
    obtain ⟨c', h, hc⟩ := first p c (by simpa using hp) hw
    exact ⟨c', refill_of_requestLine h as, hc⟩
  | cons b blanks ih =>
    obtain ⟨cs, rfl, hcs⟩ := hb _ (List.mem_cons_self ..)
    have hp1 : p = (if c.awaiting then 0 else 1) + (blanks.length + 1) := by
      rw [hp]; split <;> simp [Nat.add_comm]
    obtain ⟨k, hk, -, hkw, hkt⟩ := first _ c rfl fun n h => by have := hw n h; omega
    obtain ⟨c', h1, h2, h3, h4⟩ := ih (fun b h => hb b (List.mem_cons_of_mem _ h))
      { k with answers := blanks ++ as, awaiting := false } (blanks.length + 1) (by simp) fun n hn => by
        simp only [hkw, Option.map_eq_some_iff] at hn
        obtain ⟨m, hm, rfl⟩ := hn
        have := hw m hm; omega
    refine ⟨c', ?_, h2, ?_, ?_⟩
    · rw [← h1, List.cons_append, refill, hk]
      simp [queuedLine, hcs]
    · rw [h3]; simp only [hkw, Option.map_map]
      congr 1; funext n; simp only [Function.comp]; omega
    · rw [h4]; simp only [hkt, List.append_assoc, ← List.replicate_add, hp1]

/-- The refill loop fails when the Console lets fewer prompts be written than the blank lines and the line behind them
need (R141, log 4). -/
theorem refill_prompt_fails (blanks as : List LineAnswer)
    (hb : ∀ b ∈ blanks, ∃ cs, b = .line cs ∧ isBlankLine cs = true) (c : Console) (n : Nat)
    (hw : c.writesLeft = some n) (hn : n < if c.awaiting then blanks.length else blanks.length + 1) :
    ∃ k, refill (blanks ++ as) c = .failed k := by
  have dead : ∀ (xs : List LineAnswer) (k : Console), k.awaiting = false → k.writesLeft = some 0 →
      ∃ k', refill xs k = .failed k' := by
    intro xs k h1 h2
    have h : k.requestLine = none := by simp [Console.requestLine, h1, Console.write, h2]
    exact ⟨k, by unfold refill; rw [h]⟩
  induction blanks generalizing c n with
  | nil =>
    cases ha : c.awaiting <;> simp [ha] at hn
    exact dead _ c ha (hn ▸ hw)
  | cons b blanks ih =>
    obtain ⟨cs, rfl, hcs⟩ := hb _ (List.mem_cons_self ..)
    have next : ∀ k, c.requestLine = some k → ∀ m, k.writesLeft = some m → m < blanks.length + 1 →
        ∃ k', refill (.line cs :: blanks ++ as) c = .failed k' := by
      intro k hk m hm hlt
      obtain ⟨k', h⟩ := ih (fun b h => hb b (List.mem_cons_of_mem _ h))
        { k with answers := blanks ++ as, awaiting := false } m hm (by simpa using hlt)
      refine ⟨k', ?_⟩
      rw [← h, List.cons_append, refill, hk]
      simp [queuedLine, hcs]
    cases ha : c.awaiting with
    | true => exact next c (by simp [Console.requestLine, ha]) n hw (by simpa [ha] using hn)
    | false =>
      cases n with
      | zero => exact dead _ c ha hw
      | succ n =>
        exact next _ (requestLine_prompts ha (by simp [hw])) n (by simp [hw]) (by simpa [ha] using hn)

/-- What `ConsoleIn()` can do (R134). -/
theorem consoleIn_cases (b : List Nat) (c : Console) :
    (b = [] ∧ ∃ k, consoleIn b c = .waiting k ∧ k.outWords = c.outWords) ∨
    (b = [] ∧ ∃ k, consoleIn b c = .failed k ∧ k.outWords = c.outWords) ∨
    (∃ x xs k, consoleIn b c = .char x xs k ∧ k.outWords = c.outWords ∧
      (b = x :: xs ∨ b = [] ∧ ∃ cs, queuedLine cs = x :: xs)) := by
  cases b with
  | cons x xs => exact .inr (.inr ⟨x, xs, c, rfl, rfl, .inl rfl⟩)
  | nil =>
    obtain ⟨k, hk, h1, -⟩ | ⟨k, hk, h1⟩ | ⟨x, xs, k, cs, hk, h1, h2⟩ := refill_cases c.answers c
    · exact .inl ⟨rfl, k, hk, h1⟩
    · exact .inr (.inl ⟨rfl, k, hk, h1⟩)
    · exact .inr (.inr ⟨x, xs, k, hk, h1, .inr ⟨rfl, cs, h2⟩⟩)

/-! ### Shapes of meanings -/

/-- The three-operand instructions: fault entry, or a register written and IP moved past four words. -/
theorem binaryToDest_cases {op : Word → Word → Except Raise Word} {d a b : Operand} {s t : State}
    (h : binaryToDest op d a b s = .next t) :
    (∃ f, t = s.raise f) ∨ ∃ x y v r, resolve s a = .ok x ∧ resolve s b = .ok y ∧ op x y = .ok v ∧
      d = .register r ∧ t = (s.setReg r v).advance 3 := by
  unfold binaryToDest at h
  rw [commit_eq_next] at h
  obtain h | ⟨f, -, rfl⟩ := h
  · simp only [bind_eq_ok, store_eq_ok, except_pure, Except.ok.injEq] at h
    obtain ⟨x, hx, y, hy, v, hv, u, ⟨r, rfl, rfl⟩, rfl⟩ := h
    exact .inr ⟨x, y, v, r, hx, hy, hv, rfl, rfl⟩
  · exact .inl ⟨f, rfl⟩

theorem execSet_cases {d a : Operand} {s t : State} (h : execSet d a s = .next t) :
    (∃ f, t = s.raise f) ∨ ∃ v r, resolve s a = .ok v ∧ d = .register r ∧ t = (s.setReg r v).advance 2 := by
  unfold execSet at h
  rw [commit_eq_next] at h
  obtain h | ⟨f, -, rfl⟩ := h
  · simp only [bind_eq_ok, store_eq_ok, except_pure, Except.ok.injEq] at h
    obtain ⟨v, hv, u, ⟨r, rfl, rfl⟩, rfl⟩ := h
    exact .inr ⟨v, r, hv, rfl, rfl⟩
  · exact .inl ⟨f, rfl⟩

theorem execNot_cases {d a : Operand} {s t : State} (h : execNot d a s = .next t) :
    (∃ f, t = s.raise f) ∨ ∃ v r, resolve s a = .ok v ∧ d = .register r ∧
      t = (s.setReg r (aluNot v)).advance 2 := by
  unfold execNot at h
  rw [commit_eq_next] at h
  obtain h | ⟨f, -, rfl⟩ := h
  · simp only [bind_eq_ok, store_eq_ok, except_pure, Except.ok.injEq] at h
    obtain ⟨v, hv, u, ⟨r, rfl, rfl⟩, rfl⟩ := h
    exact .inr ⟨v, r, hv, rfl, rfl⟩
  · exact .inl ⟨f, rfl⟩

theorem execPush_cases {a : Operand} {s t : State} (h : execPush a s = .next t) :
    (∃ f, t = s.raise f) ∨ ∃ v, resolve s a = .ok v ∧ t = (s.push v).advance 1 := by
  unfold execPush at h
  rw [commit_eq_next] at h
  obtain h | ⟨f, -, rfl⟩ := h
  · simp only [bind_eq_ok, except_pure, Except.ok.injEq] at h
    obtain ⟨v, hv, rfl⟩ := h
    exact .inr ⟨v, hv, rfl⟩
  · exact .inl ⟨f, rfl⟩

theorem execPop_cases {d : Operand} {s t : State} (h : execPop d s = .next t) :
    (∃ f, t = s.raise f) ∨ ∃ v rest r, s.stack = v :: rest ∧ d = .register r ∧
      t = ((s.setReg r v).setStack rest).advance 1 := by
  unfold execPop at h
  rw [commit_eq_next] at h
  obtain h | ⟨f, -, rfl⟩ := h
  · split at h
    · simp at h
    · rename_i v rest hst
      simp only [bind_eq_ok, store_eq_ok, except_pure, Except.ok.injEq] at h
      obtain ⟨u, ⟨r, rfl, rfl⟩, rfl⟩ := h
      exact .inr ⟨v, rest, r, hst, rfl, rfl⟩
  · exact .inl ⟨f, rfl⟩

theorem execJmp_cases {a : Operand} {s t : State} (h : execJmp a s = .next t) :
    (∃ f, t = s.raise f) ∨ ∃ v, resolve s a = .ok v ∧ t = s.setPc v := by
  unfold execJmp at h
  rw [commit_eq_next] at h
  obtain h | ⟨f, -, rfl⟩ := h
  · simp only [bind_eq_ok, except_pure, Except.ok.injEq] at h
    obtain ⟨v, hv, rfl⟩ := h
    exact .inr ⟨v, hv, rfl⟩
  · exact .inl ⟨f, rfl⟩

theorem execJt_cases {a b : Operand} {s t : State} (h : execJt a b s = .next t) :
    (∃ f, t = s.raise f) ∨ ∃ c v, resolve s a = .ok c ∧ resolve s b = .ok v ∧
      t = if nonZero c then s.setPc v else s.advance 2 := by
  unfold execJt at h
  rw [commit_eq_next] at h
  obtain h | ⟨f, -, rfl⟩ := h
  · simp only [bind_eq_ok, except_pure, Except.ok.injEq] at h
    obtain ⟨c, hc, v, hv, rfl⟩ := h
    exact .inr ⟨c, v, hc, hv, rfl⟩
  · exact .inl ⟨f, rfl⟩

theorem execJf_cases {a b : Operand} {s t : State} (h : execJf a b s = .next t) :
    (∃ f, t = s.raise f) ∨ ∃ c v, resolve s a = .ok c ∧ resolve s b = .ok v ∧
      t = if nonZero c then s.advance 2 else s.setPc v := by
  unfold execJf at h
  rw [commit_eq_next] at h
  obtain h | ⟨f, -, rfl⟩ := h
  · simp only [bind_eq_ok, except_pure, Except.ok.injEq] at h
    obtain ⟨c, hc, v, hv, rfl⟩ := h
    exact .inr ⟨c, v, hc, hv, rfl⟩
  · exact .inl ⟨f, rfl⟩

theorem execCall_cases {a : Operand} {s t : State} (h : execCall a s = .next t) :
    (∃ f, t = s.raise f) ∨ ∃ v, resolve s a = .ok v ∧ t = (s.push (s.pc + 2)).setPc v := by
  unfold execCall at h
  rw [commit_eq_next] at h
  obtain h | ⟨f, -, rfl⟩ := h
  · simp only [bind_eq_ok, except_pure, Except.ok.injEq] at h
    obtain ⟨v, hv, rfl⟩ := h
    exact .inr ⟨v, hv, rfl⟩
  · exact .inl ⟨f, rfl⟩

theorem execRet_cases {s t : State} (h : execRet s = .next t) :
    (s.stack = [] ∧ t = s.terminate .cleanHalt) ∨
    ∃ v rest, s.stack = v :: rest ∧ t = (s.setStack rest).setPc v := by
  unfold execRet at h
  split at h
  · cases h; exact .inl ⟨‹_›, rfl⟩
  · cases h; exact .inr ⟨_, _, ‹_›, rfl⟩

theorem execRmem_cases {d addr : Operand} {s t : State} (h : execRmem d addr s = .next t) :
    (∃ f, t = s.raise f) ∨ ∃ a r, resolve s addr = .ok a ∧ a.toNat < 32768 ∧ d = .register r ∧
      t = (s.setReg r (s.mem.read a.toNat)).advance 2 := by
  unfold execRmem at h
  rw [commit_eq_next] at h
  obtain h | ⟨f, -, rfl⟩ := h
  · simp only [bind_eq_ok, store_eq_ok, memRead_eq_ok, except_pure, Except.ok.injEq] at h
    obtain ⟨a, ha, v, ⟨hlt, rfl⟩, u, ⟨r, rfl, rfl⟩, rfl⟩ := h
    exact .inr ⟨a, r, ha, hlt, rfl, rfl⟩
  · exact .inl ⟨f, rfl⟩

theorem execWmem_cases {addr val : Operand} {s t : State} (h : execWmem addr val s = .next t) :
    (∃ f, t = s.raise f) ∨ ∃ a v, resolve s addr = .ok a ∧ resolve s val = .ok v ∧ a.toNat < 32768 ∧
      t = (s.setMem (s.mem.write a.toNat v)).advance 2 := by
  unfold execWmem at h
  rw [commit_eq_next] at h
  obtain h | ⟨f, -, rfl⟩ := h
  · simp only [bind_eq_ok, memWrite_eq_ok, except_pure, Except.ok.injEq] at h
    obtain ⟨a, ha, v, hv, m, ⟨hlt, rfl⟩, rfl⟩ := h
    exact .inr ⟨a, v, ha, hv, hlt, rfl⟩
  · exact .inl ⟨f, rfl⟩

theorem execOut_cases {a : Operand} {s t : State} (h : execOut a s = .next t) :
    (∃ f, t = s.raise f) ∨ ∃ v c, resolve s a = .ok v ∧ s.console.write (.out v) = some c ∧
      t = (s.setConsole c).advance 1 := by
  unfold execOut at h
  rw [commit_eq_next] at h
  obtain h | ⟨f, -, rfl⟩ := h
  · simp only [bind_eq_ok, except_pure, Except.ok.injEq] at h
    obtain ⟨v, hv, u, hu, rfl⟩ := h
    unfold consoleOut at hu
    split at hu
    · rename_i c hc; cases hu; exact .inr ⟨v, c, hv, hc, rfl⟩
    · cases hu
  · exact .inl ⟨f, rfl⟩

/-- The end of `in`: fault entry, or the code point in the register. -/
theorem deliver_cases (d : Operand) (c : Nat) (s : State) :
    (∃ f, deliver d c s = .error f) ∨
    ∃ r, c < 32768 ∧ d = .register r ∧ deliver d c s = .ok ((s.setReg r (BitVec.ofNat 16 c)).advance 1) := by
  unfold deliver
  split
  · exact .inl ⟨_, rfl⟩
  · cases d with
    | register r => exact .inr ⟨r, by omega, rfl, rfl⟩
    | literal v => exact .inl ⟨_, rfl⟩
    | invalid w => exact .inl ⟨_, rfl⟩

/-- What `in` can do (R131): wait, fail, or take a code point and then fault or deliver it. -/
theorem execIn_cases {d : Operand} {s t : State} (h : execIn d s = .next t) :
    (∃ k, s.inbuf = [] ∧ consoleIn s.inbuf s.console = .waiting k ∧ t = s.setConsole k) ∨
    (∃ k, s.inbuf = [] ∧ consoleIn s.inbuf s.console = .failed k ∧ t = (s.setConsole k).raise .consoleFailure) ∨
    (∃ c rest k, consoleIn s.inbuf s.console = .char c rest k ∧
      ((∃ f, deliver d c ((s.setInbuf rest).setConsole k) = .error f ∧
          t = ((s.setInbuf rest).setConsole k).raise f) ∨
        ∃ r, c < 32768 ∧ d = .register r ∧
          t = (((s.setInbuf rest).setConsole k).setReg r (BitVec.ofNat 16 c)).advance 1)) := by
  unfold execIn at h
  obtain ⟨hb, k, hk, -⟩ | ⟨hb, k, hk, -⟩ | ⟨c, rest, k, hk, -⟩ := consoleIn_cases s.inbuf s.console
  · simp only [hk, Host.Outcome.next.injEq] at h; exact .inl ⟨k, hb, hk, h.symm⟩
  · simp only [hk, Host.Outcome.next.injEq] at h; exact .inr (.inl ⟨k, hb, hk, h.symm⟩)
  · simp only [hk] at h
    refine .inr (.inr ⟨c, rest, k, hk, ?_⟩)
    obtain ⟨f, hf⟩ | ⟨r, hc, hd, hf⟩ := deliver_cases d c ((s.setInbuf rest).setConsole k)
    · rw [hf] at h
      simp only [State.commit_error, Host.Outcome.next.injEq] at h
      exact .inl ⟨f, hf, h.symm⟩
    · rw [hf] at h
      simp only [State.commit_ok, Host.Outcome.next.injEq] at h
      exact .inr ⟨r, hc, hd, h.symm⟩

end Sys2Proof.Machine
end

