-- ==== Sys2Proof/Laws/Cases.lean ====
section
/-! SUPPORT. One inversion of `exec` over all instructions, and the fault each instruction takes,
    with its condition. -/

namespace Sys2Proof.Machine

/-- Everything an instruction other than `in` can do: a fault, a termination, or its effect. What `in` can do is said
by its own lemma. -/
theorem exec_cases (i : Instr) (s t : State) (h : exec i s = .next t) :
   (∃ f, t = s.raise f) ∨ (i = .halt ∧ t = s.terminate .halted) ∨ (i = .ret ∧ s.stack = [] ∧
       t = s.terminate .cleanHalt) ∨
   (∃ d r v n, i.destination = some d ∧ d = .register r ∧ (∀ d, i ≠ .pop d) ∧ (∀ d, i ≠ .inp d) ∧
       t = (s.setReg r v).advance n ∧ n = i.opcode.operandCount ∧ (∀ a, i = .set d a → resolve s a = .ok v) ∧
           (∀ a, i = .rmem d a → ∃ x, v = s.mem.read x) ∧ (i.opcode ≠ .set → i.opcode ≠ .rmem → v.toNat ≤ 32767)) ∨
   (∃ v n, (∃ a, i = .push a ∧ resolve s a = .ok v) ∧ t = (s.push v).advance n ∧ n = 1) ∨
   (∃ r v rest, i = .pop (.register r) ∧ s.stack = v :: rest ∧ t = ((s.setReg r v).setStack rest).advance 1) ∨
   (∃ a v, i = .jmp a ∧ resolve s a = .ok v ∧ t = s.setPc v) ∨
   (∃ a v, i = .call a ∧ resolve s a = .ok v ∧ t = (s.push (s.pc + 2)).setPc v) ∨
   (∃ v rest, i = .ret ∧ s.stack = v :: rest ∧ t = (s.setStack rest).setPc v) ∨
   (∃ a b c v, i = .jt a b ∧ resolve s a = .ok c ∧ resolve s b = .ok v ∧
       t = s.setPc (if c = 0 then s.pc + 3 else v)) ∨
   (∃ a b c v, i = .jf a b ∧ resolve s a = .ok c ∧ resolve s b = .ok v ∧
       t = s.setPc (if c = 0 then v else s.pc + 3)) ∨
   (∃ x y a v, i = .wmem x y ∧ resolve s x = .ok a ∧ resolve s y = .ok v ∧ a.toNat < 32768 ∧
       t = (s.setMem (s.mem.write a.toNat v)).advance 2) ∨
   (∃ a v c, i = .out a ∧ resolve s a = .ok v ∧ s.console.write (.out v) = some c ∧ t = (s.setConsole c).advance 1) ∨
   (i = .noop ∧ t = s.advance 0) ∨ (∃ d, i = .inp d) := by
  have red : ∀ n, (reduce n).toNat ≤ 32767 := by intro n; simp [reduce]; omega
  have tw : ∀ b, (truthWord b).toNat ≤ 32767 := by intro b; cases b <;> simp [truthWord]
  have bin : ∀ op d a b, (∀ x y v, op x y = Except.ok v → v.toNat ≤ 32767) → binaryToDest op d a b s = .next t →
      (∃ f, t = s.raise f) ∨ ∃ r v, d = .register r ∧ t = (s.setReg r v).advance 3 ∧ v.toNat ≤ 32767 := by
    intro op d a b ho hb
    obtain h | ⟨x, y, v, r, -, -, h1, h2, h3⟩ := binaryToDest_cases hb
    · exact .inl h
    · exact .inr ⟨r, v, h2, h3, ho _ _ _ h1⟩
  cases i
  case halt => cases h; exact .inr (.inl ⟨rfl, rfl⟩)
  case noop => cases h; simp
  case ret =>
    obtain ⟨h1, rfl⟩ | ⟨v, rest, h1, rfl⟩ := execRet_cases h
    · simp [h1]
    · simp [h1]
  case set d a =>
    obtain h1 | ⟨v, r, h1, rfl, rfl⟩ := execSet_cases h
    · exact .inl h1
    · right; right; right; left
      exact ⟨_, r, v, 2, rfl, rfl, by simp, by simp, rfl, rfl, by simp [h1], by simp, by simp [Instr.opcode]⟩
  case not d a =>
    obtain h1 | ⟨v, r, h1, rfl, rfl⟩ := execNot_cases h
    · exact .inl h1
    · right; right; right; left
      exact ⟨_, r, _, 2, rfl, rfl, by simp, by simp, rfl, rfl, by simp, by simp, fun _ _ => red _⟩
  case rmem d a =>
    obtain h1 | ⟨a', r, h1, h2, rfl, rfl⟩ := execRmem_cases h
    · exact .inl h1
    · right; right; right; left
      exact ⟨_, r, _, 2, rfl, rfl, by simp, by simp, rfl, rfl, by simp, fun _ _ => ⟨_, rfl⟩, by simp [Instr.opcode]⟩
  case push a =>
    obtain h1 | ⟨v, h1, rfl⟩ := execPush_cases h
    · exact .inl h1
    · right; right; right; right; left; exact ⟨v, 1, ⟨a, rfl, h1⟩, rfl, rfl⟩
  case pop d =>
    obtain h1 | ⟨v, rest, r, h1, rfl, rfl⟩ := execPop_cases h
    · exact .inl h1
    · right; right; right; right; right; left; exact ⟨r, v, rest, rfl, h1, rfl⟩
  case jmp a =>
    obtain h1 | ⟨v, h1, rfl⟩ := execJmp_cases h
    · exact .inl h1
    · iterate 6 right
      left; exact ⟨a, v, rfl, h1, rfl⟩
  case call a =>
    obtain h1 | ⟨v, h1, rfl⟩ := execCall_cases h
    · exact .inl h1
    · iterate 7 right
      left; exact ⟨a, v, rfl, h1, rfl⟩
  case jt a b =>
    obtain h1 | ⟨c, v, h1, h2, rfl⟩ := execJt_cases h
    · exact .inl h1
    · iterate 9 right
      left; refine ⟨a, b, c, v, rfl, h1, h2, ?_⟩; by_cases hc : c = 0
      · subst hc; rfl
      · rw [if_neg hc, show nonZero c = true from decide_eq_true hc]; rfl
  case jf a b =>
    obtain h1 | ⟨c, v, h1, h2, rfl⟩ := execJf_cases h
    · exact .inl h1
    · iterate 10 right
      left; refine ⟨a, b, c, v, rfl, h1, h2, ?_⟩; by_cases hc : c = 0
      · subst hc; rfl
      · rw [if_neg hc, show nonZero c = true from decide_eq_true hc]; rfl
  case wmem x y =>
    obtain h1 | ⟨a, v, h1, h2, h3, rfl⟩ := execWmem_cases h
    · exact .inl h1
    · iterate 11 right
      left; exact ⟨x, y, a, v, rfl, h1, h2, h3, rfl⟩
  case out a =>
    obtain h1 | ⟨v, c, h1, h2, rfl⟩ := execOut_cases h
    · exact .inl h1
    · iterate 12 right
      left; exact ⟨a, v, c, rfl, h1, h2, rfl⟩
  case inp d => simp
  all_goals
    rename_i d a b
    obtain h1 | ⟨r, v, rfl, rfl, hv⟩ := bin _ d a b (by
      intro x y v hv
      simp only [aluEq, aluGt, aluAdd, aluMult, aluMod, aluAnd, aluOr, Except.ok.injEq] at hv
      first
      | (subst hv; first | exact tw _ | exact red _)
      | (split at hv <;> simp at hv; subst hv; exact red _)) h
    · exact .inl h1
    · right; right; right; left
      exact ⟨_, r, v, 3, rfl, rfl, by simp, by simp, rfl, rfl, by simp, by simp, fun _ _ => hv⟩


theorem firstInvalid_of_resolve_error {s : State} {a : Operand} {f : Raise} (h : resolve s a = .error f) : ∃ w,
    firstInvalid [a] = some w ∧ f = .invalidOperand w := by
  obtain ⟨w, rfl, rfl⟩ := resolve_eq_error.1 h; exact ⟨w, rfl, rfl⟩

theorem firstInvalid_of_resolve_ok {s : State} {a : Operand} {v : Word} (h : resolve s a = .ok v) (rest :
    List Operand) : firstInvalid (a :: rest) = firstInvalid rest := by
  obtain ⟨l, rfl, -⟩ | ⟨r, rfl, -⟩ := resolve_eq_ok.1 h <;> rfl

/-- The fault `f` that instruction `i`, other than `in`, takes in state `s`: an invalid source first, then its own
fault, then a destination that is no register (R160). -/
def FaultCause (i : Instr) (s : State) (f : Raise) : Prop :=
  (∃ w, firstInvalid i.sources = some w ∧ f = .invalidOperand w) ∨
  (firstInvalid i.sources = none ∧
    ((∃ d, i = .pop d ∧ s.stack = [] ∧ f = .stackUnderflow) ∨
     (∃ d a b x, i = .mod d a b ∧ resolve s a = .ok x ∧ resolve s b = .ok 0 ∧ f = .divideByZero) ∨
     (∃ x y a, (i = .rmem y x ∨ i = .wmem x y) ∧ resolve s x = .ok a ∧ 32768 ≤ a.toNat ∧ f = .invalidAddress a) ∨
     (∃ a v, i = .out a ∧ resolve s a = .ok v ∧ s.console.writesLeft = some 0 ∧ f = .consoleFailure) ∨
     (∃ d, i.destination = some d ∧ (∀ r, d ≠ .register r) ∧ f = .invalidDestination d.word ∧
         (∀ d, i = .pop d → s.stack ≠ []) ∧
        (∀ d a b, i = .mod d a b → resolve s b ≠ .ok 0))))

theorem binary_faultCause {op : Word → Word → Except Raise Word} {d a b : Operand} {s : State} {f : Raise} {i :
    Instr} (hs : Instr.sources i = [a, b]) (hd : i.destination = some d)
   (hnp : ∀ d, i ≠ .pop d) (hnm : ∀ d a b, i = .mod d a b → ∀ v, op v 0 = .error .divideByZero)
   (hm : ∀ d' a' b', i = .mod d' a' b' → a' = a ∧ b' = b)
   (ho : ∀ x y f, op x y = .error f → (∃ d a b, i = .mod d a b) ∧ y = 0 ∧ f = .divideByZero)
   (h : (do let x ← resolve s a; let y ← resolve s b; let v ← op x y; let t ← store s d v; return t.advance 3 :
       Except Raise State) = .error f) : FaultCause i s f := by
  simp only [bind_eq_error, except_pure, reduceCtorEq, and_false, exists_false, or_false] at h
  obtain h | ⟨x, hx, h | ⟨y, hy, h | ⟨v, hv, h⟩⟩⟩ := h
  · obtain ⟨w, rfl, rfl⟩ := resolve_eq_error.1 h; exact .inl ⟨w, by rw [hs]; rfl, rfl⟩
  · obtain ⟨w, rfl, rfl⟩ := resolve_eq_error.1 h; exact .inl ⟨w, by rw [hs, firstInvalid_of_resolve_ok hx]; rfl, rfl⟩
  · obtain ⟨⟨d', a', b', rfl⟩, rfl, rfl⟩ := ho _ _ _ h
    obtain ⟨rfl, rfl⟩ := hm _ _ _ rfl
    refine .inr ⟨by rw [hs, firstInvalid_of_resolve_ok hx, firstInvalid_of_resolve_ok hy]; rfl, .inr (.inl ⟨_, _,
        _, x, rfl, hx, hy, rfl⟩)⟩
  · obtain ⟨h1, rfl⟩ := store_eq_error.1 h
    refine .inr ⟨by rw [hs, firstInvalid_of_resolve_ok hx, firstInvalid_of_resolve_ok hy]; rfl,
        .inr (.inr (.inr (.inr ⟨d, hd, h1, rfl, fun d' hd' => absurd hd' (hnp d'), ?_⟩)))⟩
    intro d' a' b' hi hb0
    obtain ⟨rfl, rfl⟩ := hm _ _ _ hi
    rw [hy] at hb0; cases hb0
    rw [hnm _ _ _ hi] at hv; cases hv

theorem faultCause_only_source {s a f} (h : resolve s a = .error f) (i : Instr) (hi : i.sources = [a]) :
    FaultCause i s f := by
  obtain ⟨w, rfl, rfl⟩ := resolve_eq_error.1 h; exact .inl ⟨w, by rw [hi]; rfl, rfl⟩
theorem faultCause_second_of_two {s a b x f} (hx : resolve s a = .ok x) (h : resolve s b = .error f) (i :
    Instr) (hi : i.sources = [a, b]) : FaultCause i s f := by
  obtain ⟨w, rfl, rfl⟩ := resolve_eq_error.1 h; exact .inl ⟨w, by rw [hi, firstInvalid_of_resolve_ok hx]; rfl, rfl⟩
theorem faultCause_first_of_two {s a b f} (h : resolve s a = .error f) (i : Instr) (hi : i.sources = [a, b]) :
    FaultCause i s f := by
  obtain ⟨w, rfl, rfl⟩ := resolve_eq_error.1 h; exact .inl ⟨w, by rw [hi]; rfl, rfl⟩
theorem firstInvalid_one_ok {s a x} (hx : resolve s a = .ok x) :
    firstInvalid [a] = none := by rw [firstInvalid_of_resolve_ok hx]; rfl
theorem firstInvalid_two_ok {s a b x y} (hx : resolve s a = .ok x) (hy : resolve s b = .ok y) : firstInvalid [a,
    b] = none := by rw [firstInvalid_of_resolve_ok hx, firstInvalid_of_resolve_ok hy]; rfl

theorem exec_fault_cases {i : Instr} {s t : State} (hr : s.isRunning = true) (h : exec i s = .next t) (hf :
    t.status.state = .fault) (hn : ∀ d, i ≠ .inp d) :
    ∃ f, t = s.raise f ∧ FaultCause i s f := by
  have hr' := hr; simp at hr'
  cases i
  case halt => cases h; simp at hf
  case noop => cases h; simp [hr'] at hf
  case ret => obtain ⟨-, rfl⟩ | ⟨v, rest, -, rfl⟩ := execRet_cases h <;> simp [hr'] at hf
  case inp d => exact absurd rfl (hn d)
  case set d a =>
    rw [exec, execSet, commit_eq_next] at h
    obtain h | ⟨f, h, rfl⟩ := h
    · simp only [bind_eq_ok, store_eq_ok, except_pure, Except.ok.injEq] at h
      obtain ⟨v, hv, u, ⟨r, rfl, rfl⟩, rfl⟩ := h; simp [hr'] at hf
    · refine ⟨f, rfl, ?_⟩
      simp only [bind_eq_error, store_eq_error, except_pure, reduceCtorEq, and_false, exists_false, or_false] at h
      obtain h | ⟨x, hx, h1, rfl⟩ := h
      · exact faultCause_only_source h _ rfl
      · exact .inr ⟨firstInvalid_one_ok hx, by right; right; right; right; exact ⟨d, rfl, h1, rfl, by simp, by simp⟩⟩
  case not d a =>
    rw [exec, execNot, commit_eq_next] at h
    obtain h | ⟨f, h, rfl⟩ := h
    · simp only [bind_eq_ok, store_eq_ok, except_pure, Except.ok.injEq] at h
      obtain ⟨v, hv, u, ⟨r, rfl, rfl⟩, rfl⟩ := h; simp [hr'] at hf
    · refine ⟨f, rfl, ?_⟩
      simp only [bind_eq_error, store_eq_error, except_pure, reduceCtorEq, and_false, exists_false, or_false] at h
      obtain h | ⟨x, hx, h1, rfl⟩ := h
      · exact faultCause_only_source h _ rfl
      · exact .inr ⟨firstInvalid_one_ok hx, by right; right; right; right; exact ⟨d, rfl, h1, rfl, by simp, by simp⟩⟩
  case rmem d a =>
    rw [exec, execRmem, commit_eq_next] at h
    obtain h | ⟨f, h, rfl⟩ := h
    · simp only [bind_eq_ok, store_eq_ok, except_pure, Except.ok.injEq] at h
      obtain ⟨v, hv, w, hw, u, ⟨r, rfl, rfl⟩, rfl⟩ := h; simp [hr'] at hf
    · refine ⟨f, rfl, ?_⟩
      simp only [bind_eq_error, store_eq_error, memRead_eq_error, except_pure, reduceCtorEq, and_false,
          exists_false, or_false] at h
      obtain h | ⟨x, hx, ⟨h, rfl⟩ | ⟨v, hv, h1, rfl⟩⟩ := h
      · exact faultCause_only_source h _ rfl
      · exact .inr ⟨firstInvalid_one_ok hx, by right; right; left; exact ⟨a, d, x, .inl rfl, hx, h, rfl⟩⟩
      · exact .inr ⟨firstInvalid_one_ok hx, by right; right; right; right; exact ⟨d, rfl, h1, rfl, by simp, by simp⟩⟩
  case wmem x y =>
    rw [exec, execWmem, commit_eq_next] at h
    obtain h | ⟨f, h, rfl⟩ := h
    · simp only [bind_eq_ok, store_eq_ok, except_pure, Except.ok.injEq] at h
      obtain ⟨v, hv, w, hw, m, hm, rfl⟩ := h; simp [hr'] at hf
    · refine ⟨f, rfl, ?_⟩
      simp only [bind_eq_error, memWrite_eq_error, except_pure, reduceCtorEq, and_false, exists_false, or_false] at h
      obtain h | ⟨x', hx, h | ⟨v, hv, h1, rfl⟩⟩ := h
      · exact faultCause_first_of_two h _ rfl
      · exact faultCause_second_of_two hx h _ rfl
      · exact .inr ⟨firstInvalid_two_ok hx hv, by right; right; left; exact ⟨x, y, x', .inr rfl, hx, h1, rfl⟩⟩
  case push a =>
    rw [exec, execPush, commit_eq_next] at h
    obtain h | ⟨f, h, rfl⟩ := h
    · simp only [bind_eq_ok, except_pure, Except.ok.injEq] at h
      obtain ⟨v, hv, rfl⟩ := h; simp [hr'] at hf
    · refine ⟨f, rfl, ?_⟩
      simp only [bind_eq_error, except_pure, reduceCtorEq, and_false, exists_false, or_false] at h
      exact faultCause_only_source h _ rfl
  case jmp a =>
    rw [exec, execJmp, commit_eq_next] at h
    obtain h | ⟨f, h, rfl⟩ := h
    · simp only [bind_eq_ok, except_pure, Except.ok.injEq] at h
      obtain ⟨v, hv, rfl⟩ := h; simp [hr'] at hf
    · refine ⟨f, rfl, ?_⟩
      simp only [bind_eq_error, except_pure, reduceCtorEq, and_false, exists_false, or_false] at h
      exact faultCause_only_source h _ rfl
  case call a =>
    rw [exec, execCall, commit_eq_next] at h
    obtain h | ⟨f, h, rfl⟩ := h
    · simp only [bind_eq_ok, except_pure, Except.ok.injEq] at h
      obtain ⟨v, hv, rfl⟩ := h; simp [hr'] at hf
    · refine ⟨f, rfl, ?_⟩
      simp only [bind_eq_error, except_pure, reduceCtorEq, and_false, exists_false, or_false] at h
      exact faultCause_only_source h _ rfl
  case jt a b =>
    rw [exec, execJt, commit_eq_next] at h
    obtain h | ⟨f, h, rfl⟩ := h
    · simp only [bind_eq_ok, except_pure, Except.ok.injEq] at h
      obtain ⟨v, hv, w, hw, rfl⟩ := h; split at hf <;> simp [hr'] at hf
    · refine ⟨f, rfl, ?_⟩
      simp only [bind_eq_error, except_pure, reduceCtorEq, and_false, exists_false, or_false] at h
      obtain h | ⟨x, hx, h⟩ := h
      · exact faultCause_first_of_two h _ rfl
      · exact faultCause_second_of_two hx h _ rfl
  case jf a b =>
    rw [exec, execJf, commit_eq_next] at h
    obtain h | ⟨f, h, rfl⟩ := h
    · simp only [bind_eq_ok, except_pure, Except.ok.injEq] at h
      obtain ⟨v, hv, w, hw, rfl⟩ := h; split at hf <;> simp [hr'] at hf
    · refine ⟨f, rfl, ?_⟩
      simp only [bind_eq_error, except_pure, reduceCtorEq, and_false, exists_false, or_false] at h
      obtain h | ⟨x, hx, h⟩ := h
      · exact faultCause_first_of_two h _ rfl
      · exact faultCause_second_of_two hx h _ rfl
  case out a =>
    rw [exec, execOut, commit_eq_next] at h
    obtain h | ⟨f, h, rfl⟩ := h
    · simp only [bind_eq_ok, except_pure, Except.ok.injEq] at h
      obtain ⟨v, hv, u, hu, rfl⟩ := h
      unfold consoleOut at hu; split at hu <;> cases hu; simp [hr'] at hf
    · refine ⟨f, rfl, ?_⟩
      simp only [bind_eq_error, except_pure, reduceCtorEq, and_false, exists_false, or_false] at h
      obtain h | ⟨x, hx, h⟩ := h
      · exact faultCause_only_source h _ rfl
      · unfold consoleOut at h; split at h <;> cases h
        rename_i hw
        have : s.console.writesLeft = some 0 := by unfold Console.write at hw; split at hw <;> simp_all
        exact .inr ⟨firstInvalid_one_ok hx, by right; right; right; left; exact ⟨a, x, rfl, hx, this, rfl⟩⟩
  case pop d =>
    rw [exec, execPop, commit_eq_next] at h
    obtain h | ⟨f, h, rfl⟩ := h
    · split at h
      · cases h
      · simp only [bind_eq_ok, store_eq_ok, except_pure, Except.ok.injEq] at h
        obtain ⟨u, ⟨r, rfl, rfl⟩, rfl⟩ := h; simp [hr'] at hf
    · refine ⟨f, rfl, ?_⟩
      split at h
      · rename_i hst; cases h; exact .inr ⟨rfl, .inl ⟨d, rfl, hst, rfl⟩⟩
      · rename_i v rest hst
        simp only [bind_eq_error, store_eq_error, except_pure, reduceCtorEq, and_false, exists_false, or_false] at h
        obtain ⟨h1, rfl⟩ := h
        exact .inr ⟨rfl, by right; right; right; right; exact ⟨d, rfl, h1, rfl, by simp [hst], by simp⟩⟩
  all_goals
    rename_i d a b
    have h0 := h
    simp only [exec, execEq, execGt, execAdd, execMult, execMod, execAnd, execOr, binaryToDest] at h
    rw [commit_eq_next] at h
    obtain h | ⟨f, h, rfl⟩ := h
    · simp only [bind_eq_ok, store_eq_ok, except_pure, Except.ok.injEq] at h
      obtain ⟨x, hx, y, hy, v, hv, u, ⟨r, rfl, rfl⟩, rfl⟩ := h; simp [hr'] at hf
    · refine ⟨f, rfl, binary_faultCause (a := a) (b := b) (d := d) rfl rfl (by simp) ?_ ?_ ?_ h⟩
      · first
        | (intros; simp [aluMod]; done)
        | simp
      · simp +contextual [eq_comm]
      · intro x y f hf
        first
        | (simp [aluEq, aluGt, aluAdd, aluMult, aluAnd, aluOr] at hf; done)
        | (unfold aluMod at hf; split at hf
           · rename_i h0; cases hf; exact ⟨⟨_, _, _, rfl⟩, BitVec.eq_of_toNat_eq h0, rfl⟩
           · cases hf)

theorem code_eq_2 {f : Raise} : f.code = 2 ↔ ∃ w, f = .invalidOperand w := by cases f <;> simp [Raise.code]
theorem code_eq_1 {f : Raise} : f.code = 1 ↔ ∃ w, f = .invalidOpcode w := by cases f <;> simp [Raise.code]
theorem code_eq_3 {f : Raise} : f.code = 3 ↔ ∃ w, f = .invalidDestination w := by cases f <;> simp [Raise.code]
theorem code_eq_4 {f : Raise} : f.code = 4 ↔ ∃ w, f = .invalidAddress w := by cases f <;> simp [Raise.code]
theorem code_eq_5 {f : Raise} : f.code = 5 ↔ f = .stackUnderflow := by cases f <;> simp [Raise.code]
theorem code_eq_6 {f : Raise} : f.code = 6 ↔ ∃ w, f = .inputOutOfRange w := by cases f <;> simp [Raise.code]
theorem code_eq_7 {f : Raise} : f.code = 7 ↔ f = .consoleFailure := by cases f <;> simp [Raise.code]
theorem code_eq_8 {f : Raise} : f.code = 8 ↔ f = .divideByZero := by cases f <;> simp [Raise.code]

/-- in faults -/
theorem execIn_fault_cases {d : Operand} {s t : State} (hr : s.isRunning = true) (h :
    exec (.inp d) s = .next t) (hf : t.status.state = .fault) :
   (∃ k, consoleIn s.inbuf s.console = .failed k ∧ t.Raised .consoleFailure) ∨
   (∃ c rest k, consoleIn s.inbuf s.console = .char c rest k ∧ 32768 ≤ c ∧ t.Raised (.inputOutOfRange c)) ∨
   (∃ c rest k, consoleIn s.inbuf s.console = .char c rest k ∧ c < 32768 ∧ (∀ r, d ≠ .register r) ∧
       t.Raised (.invalidDestination d.word)) := by
  have hr' := hr; simp at hr'
  obtain ⟨k, -, h1, rfl⟩ | ⟨k, -, h1, rfl⟩ | ⟨c, rest, k, h1, ⟨f, h2, rfl⟩ | ⟨q, -, rfl, rfl⟩⟩ := execIn_cases h
  · simp [hr'] at hf
  · exact .inl ⟨k, h1, rfl⟩
  · right
    unfold deliver at h2
    split at h2
    · rename_i hc; simp at h2; subst h2; exact .inl ⟨c, rest, k, h1, hc, rfl⟩
    · rename_i hc
      simp [bind_eq_error, store_eq_error] at h2
      obtain ⟨h2, rfl⟩ := h2
      exact .inr ⟨c, rest, k, h1, by omega, h2, rfl⟩
  · simp [hr'] at hf

theorem firstInvalid_iff_mem : ∀ {l : List Operand}, (∃ w, firstInvalid l = some w) ↔ ∃ w, Operand.invalid w ∈ l
  | [] => by simp [firstInvalid]
  | .literal v :: l => by simpa [firstInvalid] using firstInvalid_iff_mem (l := l)
  | .register v :: l => by simpa [firstInvalid] using firstInvalid_iff_mem (l := l)
  | .invalid w :: l => by
    constructor
    · intro _; exact ⟨w, by simp⟩
    · intro _; exact ⟨w, rfl⟩

theorem exec_of_firstInvalid {i : Instr} {s : State} {w : Word} (h : firstInvalid i.sources = some w) :
    exec i s = .next (s.raise (.invalidOperand w)) := by
  have two : ∀ a b : Operand, firstInvalid [a, b] = some w → resolve s a = .error (.invalidOperand w) ∨
      ∃ x, resolve s a = .ok x ∧ resolve s b = .error (.invalidOperand w) := by
    intro a b h
    cases a <;> cases b <;> simp_all [firstInvalid, resolve]
  have one : ∀ a : Operand, firstInvalid [a] = some w → resolve s a = .error (.invalidOperand w) := by
    intro a h; cases a <;> simp_all [firstInvalid, resolve]
  cases i <;> simp only [Instr.sources] at h
  case halt | noop | ret | pop | inp => simp [firstInvalid] at h
  case set d a => simp [exec, execSet, one a h]
  case not d a => simp [exec, execNot, one a h]
  case rmem d a => simp [exec, execRmem, one a h]
  case push a => simp [exec, execPush, one a h]
  case jmp a => simp [exec, execJmp, one a h]
  case call a => simp [exec, execCall, one a h]
  case out a => simp [exec, execOut, one a h]
  case jt a b => obtain h | ⟨x, h1, h2⟩ := two a b h <;> simp [exec, execJt, *]
  case jf a b => obtain h | ⟨x, h1, h2⟩ := two a b h <;> simp [exec, execJf, *]
  case wmem a b => obtain h | ⟨x, h1, h2⟩ := two a b h <;> simp [exec, execWmem, *]
  all_goals
    rename_i d a b
    obtain h | ⟨x, h1, h2⟩ := two a b h <;> simp [exec, execEq, execGt, execAdd, execMult, execMod, execAnd,
        execOr, binaryToDest, *]


end Sys2Proof.Machine
end

