-- ==== Sys2Proof/Laws/Decode.lean ====
section
/-! SUPPORT. The small laws of the classifier, the opcode table and the encoder. -/

namespace Sys2Proof

@[simp] theorem Reg.ofNumber_number (r : Reg) : Reg.ofNumber r.number = r := by cases r <;> rfl

theorem Reg.number_lt (r : Reg) : r.number < 8 := by cases r <;> decide

/-- Every number in 0..7 names a register, and each its own (R10). -/
theorem Reg.number_ofNumber {n : Nat} (h : n < 8) : (Reg.ofNumber n).number = n :=
  have all : ∀ k : Fin 8, (Reg.ofNumber k).number = k := by decide
  all ⟨n, h⟩

/-- No two opcodes share a number: the table has no repeats (R52). -/
theorem opcodeTable_nodup : opcodeTable.Nodup := by decide

theorem opcodeTable_length : opcodeTable.length = 22 := rfl

/-- The number of an opcode is its position in the table (R52). -/
theorem decodeOpcode_eq_none {w : Word} : decodeOpcode w = none ↔ 21 < w.toNat := by
  simp only [decodeOpcode, List.getElem?_eq_none_iff, opcodeTable_length]
  omega

end Sys2Proof
end

