-- ==== Sys2Proof/Laws/PerInstr.lean ====
section
/-! SUPPORT. Statements about every instruction as syntax, one lemma per constructor. -/

namespace Sys2Proof.Laws

/-- The length of an instruction is 1 plus its opcode's operand count, and its first word is its opcode's position in
the table (R50, R52, R53). -/
def Layout.Statement (i : Instr) : Prop :=
  (encode i).length = 1 + i.opcode.operandCount ∧ (encode i).head?.bind decodeOpcode = some i.opcode

/-- The operand count is the number of source operands and of destination operands (R52). -/
def Roles.Statement (i : Instr) : Prop :=
  i.opcode.operandCount = i.sources.length + i.destination.toList.length

theorem Layout.halt : Layout.Statement .halt := ⟨rfl, rfl⟩
theorem Layout.set (a b : Operand) : Layout.Statement (.set a b) := ⟨rfl, rfl⟩
theorem Layout.push (a : Operand) : Layout.Statement (.push a) := ⟨rfl, rfl⟩
theorem Layout.pop (a : Operand) : Layout.Statement (.pop a) := ⟨rfl, rfl⟩
theorem Layout.eq (a b c : Operand) : Layout.Statement (.eq a b c) := ⟨rfl, rfl⟩
theorem Layout.gt (a b c : Operand) : Layout.Statement (.gt a b c) := ⟨rfl, rfl⟩
theorem Layout.jmp (a : Operand) : Layout.Statement (.jmp a) := ⟨rfl, rfl⟩
theorem Layout.jt (a b : Operand) : Layout.Statement (.jt a b) := ⟨rfl, rfl⟩
theorem Layout.jf (a b : Operand) : Layout.Statement (.jf a b) := ⟨rfl, rfl⟩
theorem Layout.add (a b c : Operand) : Layout.Statement (.add a b c) := ⟨rfl, rfl⟩
theorem Layout.mult (a b c : Operand) : Layout.Statement (.mult a b c) := ⟨rfl, rfl⟩
theorem Layout.mod (a b c : Operand) : Layout.Statement (.mod a b c) := ⟨rfl, rfl⟩
theorem Layout.and (a b c : Operand) : Layout.Statement (.and a b c) := ⟨rfl, rfl⟩
theorem Layout.or (a b c : Operand) : Layout.Statement (.or a b c) := ⟨rfl, rfl⟩
theorem Layout.not (a b : Operand) : Layout.Statement (.not a b) := ⟨rfl, rfl⟩
theorem Layout.rmem (a b : Operand) : Layout.Statement (.rmem a b) := ⟨rfl, rfl⟩
theorem Layout.wmem (a b : Operand) : Layout.Statement (.wmem a b) := ⟨rfl, rfl⟩
theorem Layout.call (a : Operand) : Layout.Statement (.call a) := ⟨rfl, rfl⟩
theorem Layout.ret : Layout.Statement .ret := ⟨rfl, rfl⟩
theorem Layout.out (a : Operand) : Layout.Statement (.out a) := ⟨rfl, rfl⟩
theorem Layout.inp (a : Operand) : Layout.Statement (.inp a) := ⟨rfl, rfl⟩
theorem Layout.noop : Layout.Statement .noop := ⟨rfl, rfl⟩

theorem Roles.halt : Roles.Statement .halt := rfl
theorem Roles.set (a b : Operand) : Roles.Statement (.set a b) := rfl
theorem Roles.push (a : Operand) : Roles.Statement (.push a) := rfl
theorem Roles.pop (a : Operand) : Roles.Statement (.pop a) := rfl
theorem Roles.eq (a b c : Operand) : Roles.Statement (.eq a b c) := rfl
theorem Roles.gt (a b c : Operand) : Roles.Statement (.gt a b c) := rfl
theorem Roles.jmp (a : Operand) : Roles.Statement (.jmp a) := rfl
theorem Roles.jt (a b : Operand) : Roles.Statement (.jt a b) := rfl
theorem Roles.jf (a b : Operand) : Roles.Statement (.jf a b) := rfl
theorem Roles.add (a b c : Operand) : Roles.Statement (.add a b c) := rfl
theorem Roles.mult (a b c : Operand) : Roles.Statement (.mult a b c) := rfl
theorem Roles.mod (a b c : Operand) : Roles.Statement (.mod a b c) := rfl
theorem Roles.and (a b c : Operand) : Roles.Statement (.and a b c) := rfl
theorem Roles.or (a b c : Operand) : Roles.Statement (.or a b c) := rfl
theorem Roles.not (a b : Operand) : Roles.Statement (.not a b) := rfl
theorem Roles.rmem (a b : Operand) : Roles.Statement (.rmem a b) := rfl
theorem Roles.wmem (a b : Operand) : Roles.Statement (.wmem a b) := rfl
theorem Roles.call (a : Operand) : Roles.Statement (.call a) := rfl
theorem Roles.ret : Roles.Statement .ret := rfl
theorem Roles.out (a : Operand) : Roles.Statement (.out a) := rfl
theorem Roles.inp (a : Operand) : Roles.Statement (.inp a) := rfl
theorem Roles.noop : Roles.Statement .noop := rfl

end Sys2Proof.Laws
end

