-- ==== Sys2Proof/Tests/Slice0.lean ====
section
/-! SUPPORT. The model's own tests. Expected results come from the encoding tables of 30_encoding.md and the vectors of
95_test_vectors.md, whose section is named; the witnesses show, for each statement, a state and operands that meet its
hypotheses. -/

namespace Sys2Proof.Tests

open Sys2Proof.Machine

/-! ### Helpers -/

/-- The reset state with words from address 0 upward. -/
def program (ws : List Word) : State := State.reset.setMem (Memory.ofWords 0 ws)

/-- The next state, if there is one. -/
def nextState : Result → Option State
  | .next t => some t
  | .fault _ => none
  | .refused _ => none

/-- One step, and what `f` sees of the next state. -/
def after {α : Type} (s : State) (f : State → α) : Option α := (nextState (step s)).map f

/-- `STATUS` of a fault. -/
def faulted (code : BitVec 4) (info : BitVec 32) : Status := { state := .fault, cause := code, info := info }

/-- A Console that supplies these lines. -/
def supplying (s : State) (ls : List (List Nat)) : State :=
  s.setConsole { s.console with answers := ls.map LineAnswer.line }

/-- A Console whose next write fails. -/
def failing (s : State) : State := s.setConsole { s.console with writesLeft := some 0 }

/-- A Console of which so many writes succeed. -/
def writing (n : Nat) (s : State) : State := s.setConsole { s.console with writesLeft := some n }

/-- A check of the next state that holds gives the next state it holds of. -/
theorem exists_next {r : Result} {p : State → Bool} (h : (nextState r).any p = true) : ∃ t, r = .next t ∧ p t = true := by
  cases r with
  | next t => exact ⟨t, rfl, h⟩
  | fault f => cases h
  | refused f => cases h

/-! ### WellFormed refuses ill-formed terms -/

theorem test_wf_invalid_operand_must_be_invalid : Operand.wf (.invalid 32775) = false := by decide
theorem test_wf_invalid_operand_literal_word : Operand.wf (.invalid 5) = false := by decide
theorem test_wf_invalid_operand_accepts : Operand.wf (.invalid 32776) = true := by decide
theorem test_wf_one_source : Instr.wf (.push (.invalid 7)) = false := by decide
theorem test_wf_one_destination : Instr.wf (.inp (.invalid 32768)) = false := by decide
theorem test_wf_two_sources : Instr.wf (.jt (.invalid 0) (.literal 0)) = false ∧
    Instr.wf (.wmem (.literal 0) (.invalid 0)) = false := by decide
theorem test_wf_destination_and_source : Instr.wf (.set (.invalid 0) (.literal 0)) = false ∧
    Instr.wf (.rmem (.register .r0) (.invalid 0)) = false := by decide
theorem test_wf_three_operands : Instr.wf (.add (.invalid 0) (.literal 0) (.literal 0)) = false ∧
    Instr.wf (.or (.register .r0) (.invalid 0) (.literal 0)) = false ∧
    Instr.wf (.eq (.register .r0) (.literal 0) (.invalid 0)) = false := by decide

/-! ### Decoding: words written out from R50, R52, R54. `0b1000000000000000` is register 0, `...111` register 7 -/

theorem test_decode_halt : decode [0b0000000000000000] = .ok (.halt, []) := by decide
theorem test_decode_set : decode [0b0000000000000001, 0b1000000000000101, 0b0000000001000001] = .ok ((.set (.register .r5) (.literal 65)), []) := by decide
theorem test_decode_push : decode [0b0000000000000010, 0b0000000001000001] = .ok ((.push (.literal 65)), []) := by decide
theorem test_decode_pop : decode [0b0000000000000011, 0b1000000000000101] = .ok ((.pop (.register .r5)), []) := by decide
theorem test_decode_eq : decode [0b0000000000000100, 0b1000000000000101, 0b1000000000000010, 0b0000000001000001] = .ok ((.eq (.register .r5) (.register .r2) (.literal 65)), []) := by decide
theorem test_decode_gt : decode [0b0000000000000101, 0b1000000000000101, 0b0000000001000001, 0b1000000000000011] = .ok ((.gt (.register .r5) (.literal 65) (.register .r3)), []) := by decide
theorem test_decode_jmp : decode [0b0000000000000110, 0b0000000001000001] = .ok ((.jmp (.literal 65)), []) := by decide
theorem test_decode_jt : decode [0b0000000000000111, 0b1000000000000001, 0b0000000001000001] = .ok ((.jt (.register .r1) (.literal 65)), []) := by decide
theorem test_decode_jf : decode [0b0000000000001000, 0b0000000001000001, 0b1000000000000010] = .ok ((.jf (.literal 65) (.register .r2)), []) := by decide
theorem test_decode_add : decode [0b0000000000001001, 0b1000000000000101, 0b0000000001000001, 0b1000000000000011] = .ok ((.add (.register .r5) (.literal 65) (.register .r3)), []) := by decide
theorem test_decode_mult : decode [0b0000000000001010, 0b1000000000000101, 0b1000000000000010, 0b0000000001000001] = .ok ((.mult (.register .r5) (.register .r2) (.literal 65)), []) := by decide
theorem test_decode_mod : decode [0b0000000000001011, 0b1000000000000101, 0b0000000001000001, 0b1000000000000011] = .ok ((.mod (.register .r5) (.literal 65) (.register .r3)), []) := by decide
theorem test_decode_and : decode [0b0000000000001100, 0b1000000000000101, 0b1000000000000010, 0b0000000001000001] = .ok ((.and (.register .r5) (.register .r2) (.literal 65)), []) := by decide
theorem test_decode_or : decode [0b0000000000001101, 0b1000000000000101, 0b0000000001000001, 0b1000000000000011] = .ok ((.or (.register .r5) (.literal 65) (.register .r3)), []) := by decide
theorem test_decode_not : decode [0b0000000000001110, 0b1000000000000101, 0b1000000000000010] = .ok ((.not (.register .r5) (.register .r2)), []) := by decide
theorem test_decode_rmem : decode [0b0000000000001111, 0b1000000000000101, 0b0000000001000001] = .ok ((.rmem (.register .r5) (.literal 65)), []) := by decide
theorem test_decode_wmem : decode [0b0000000000010000, 0b0000000001000001, 0b1000000000000010] = .ok ((.wmem (.literal 65) (.register .r2)), []) := by decide
theorem test_decode_call : decode [0b0000000000010001, 0b1000000000000001] = .ok ((.call (.register .r1)), []) := by decide
theorem test_decode_ret : decode [0b0000000000010010] = .ok (.ret, []) := by decide
theorem test_decode_out : decode [0b0000000000010011, 0b1000000000000001] = .ok ((.out (.register .r1)), []) := by decide
theorem test_decode_inp : decode [0b0000000000010100, 0b1000000000000101] = .ok ((.inp (.register .r5)), []) := by decide
theorem test_decode_noop : decode [0b0000000000010101] = .ok (.noop, []) := by decide

theorem test_decode_rejects_22 : decode [22, 0, 0, 0] = .error (.invalidOpcode 22) := by decide
theorem test_decode_rejects_register_word : decode [32768] = .error (.invalidOpcode 32768) := by decide
theorem test_decode_missing_operand : decode [1, 32768] = .error (.missingOperands .set) := by decide
theorem test_decode_empty : decode [] = .error .noOpcodeWord := by decide
theorem test_classify_edges : classify 32767 = .literal 32767 ∧ classify 32768 = .register .r0 ∧
    classify 32775 = .register .r7 ∧ classify 32776 = .invalid 32776 := by decide
theorem test_encode_add : encode (.add (.register .r0) (.register .r1) (.literal 4)) = [9, 32768, 32769, 4] := by decide
theorem test_decodeTableWord_every_row : ((List.range 22).map (decodeTableWord 16)).all Option.isSome = true := by decide
theorem test_decodeTableWord_22 : decodeTableWord 16 22 = none := by decide
theorem test_decodeTableWord_operands : decodeTableWord 64 (9 + 32768 * 2 ^ 16 + 32769 * 2 ^ 32 + 4 * 2 ^ 48) =
    some (.add (.register .r0) (.register .r1) (.literal 4)) := by decide
theorem test_placed_instruction_runs : after (State.reset.withFetchWord 16 21) (fun t => t.pc) = some 1 := by decide

/-! ### One step: 95_test_vectors.md, section 2 -/

theorem test_halt : after (program [0]) (fun t => (t.status.state, t.pc)) = some (.halted, 0) := by decide
theorem test_noop : after (program [21]) (fun t => t.pc) = some 1 := by decide
theorem test_set_unmasked : after ((program [1, 32769, 32768]).setReg .r0 32770) (fun t => (t.regs.r1, t.pc)) =
    some (32770, 3) := by decide
theorem test_set_source_checked_first : after (program [1, 5, 40000]) (fun t => t.status) = some (faulted 2 40000) := by
  decide
theorem test_push : after ((program [2, 32768]).setReg .r0 12) (fun t => (t.stack, t.pc)) = some ([12], 2) := by decide
theorem test_pop : after ((program [3, 32769]).setStack [9, 4]) (fun t => (t.regs.r1, t.stack, t.pc)) =
    some (9, [4], 2) := by decide
theorem test_pop_underflow_first : after (program [3, 5]) (fun t => (t.status, t.pc)) = some (faulted 5 0, 0) := by decide
theorem test_eq_sixteen_bits : after ((program [4, 32768, 32769, 1]).setReg .r1 32769) (fun t => (t.regs.r0, t.pc)) =
    some (0, 4) := by decide
theorem test_eq_equal : after ((program [4, 32768, 32769, 66]).setReg .r1 66) (fun t => t.regs.r0) = some 1 := by decide
theorem test_gt_order : after (program [5, 32768, 5, 3]) (fun t => t.regs.r0) = some 1 := by decide
theorem test_gt_unsigned : after ((program [5, 32768, 32769, 32767]).setReg .r1 32768) (fun t => t.regs.r0) = some 1 := by
  decide
theorem test_jmp_register : after ((program [6, 32768]).setReg .r0 32770) (fun t => t.pc) = some 32770 := by decide
theorem test_jt_taken : after ((program [7, 32768, 50]).setReg .r0 3) (fun t => t.pc) = some 50 := by decide
theorem test_jt_target_always_resolved : after (program [7, 0, 40000]) (fun t => t.status) = some (faulted 2 40000) := by
  decide
theorem test_jf_taken : after ((program [8, 0, 32769]).setReg .r1 9) (fun t => t.pc) = some 9 := by decide
theorem test_jf_falls_through : after ((program [8, 32768, 50]).setReg .r0 3) (fun t => t.pc) = some 3 := by decide
theorem test_add_same_register : after ((program [9, 32768, 32768, 32768]).setReg .r0 5) (fun t => (t.regs.r0, t.pc)) =
    some (10, 4) := by decide
theorem test_add_wraps : after (program [9, 32768, 32767, 32767]) (fun t => t.regs.r0) = some 32766 := by decide
theorem test_mult_wraps : after (program [10, 32768, 12345, 6789]) (fun t => t.regs.r0) = some 22429 := by decide
theorem test_mult_top : after (program [10, 32768, 32767, 32767]) (fun t => t.regs.r0) = some 1 := by decide
theorem test_mod_unmasked_sources : after (((program [11, 32770, 32768, 32769]).setReg .r0 32770).setReg .r1 32771)
    (fun t => t.regs.r2) = some 2 := by decide
theorem test_mod_zero : after (program [11, 32768, 5, 0]) (fun t => t.status) = some (faulted 8 0) := by decide
theorem test_and : after (((program [12, 32770, 32768, 32769]).setReg .r0 32769).setReg .r1 32771)
    (fun t => t.regs.r2) = some 1 := by decide
theorem test_or : after ((program [13, 32770, 32768, 5]).setReg .r0 32768) (fun t => t.regs.r2) = some 5 := by decide
theorem test_not : after (program [14, 32768, 12345]) (fun t => (t.regs.r0, t.pc)) = some (20422, 3) := by decide
theorem test_not_register : after ((program [14, 32768, 32769]).setReg .r1 32775) (fun t => t.regs.r0) = some 32760 := by
  decide
theorem test_rmem_own_operand : after (program [15, 32768, 1]) (fun t => (t.regs.r0, t.pc)) = some (32768, 3) := by decide
theorem test_rmem_register_range : after ((program [15, 32768, 32769]).setReg .r1 32768) (fun t => t.status) =
    some (faulted 4 32768) := by decide
theorem test_wmem : after ((program [16, 100, 32768]).setReg .r0 77) (fun t => (t.mem.read 100, t.pc)) =
    some (77, 3) := by decide
theorem test_wmem_own_word : after (program [16, 0, 21]) (fun t => (t.mem.read 0, t.status.state)) =
    some (21, .running) := by decide
theorem test_call : after ((program [17, 32768]).setReg .r0 300) (fun t => (t.stack, t.pc)) = some ([2], 300) := by decide
theorem test_call_at_the_top : after ((State.reset.setMem [(32766, 17), (32767, 100)]).setPc 32766)
    (fun t => (t.stack, t.pc)) = some ([32768], 100) := by decide
theorem test_ret : after ((program [18]).setStack [12]) (fun t => (t.stack, t.pc)) = some ([], 12) := by decide
theorem test_ret_clean_halt : after (program [18]) (fun t => (t.status.state, t.pc)) = some (.cleanHalt, 0) := by decide
theorem test_out : after ((program [19, 32768]).setReg .r0 10) (fun t => (t.console.outWords, t.pc)) =
    some ([10], 2) := by decide
theorem test_out_failure : after (failing (program [19, 65])) (fun t => (t.status, t.console.outWords)) =
    some (faulted 7 0, []) := by decide
theorem test_in_reads_a_line : after (supplying (program [20, 32768]) [[10], [13, 10], [97, 13, 10]])
    (fun t => (t.regs.r0, t.inbuf, t.console.promptCount)) = some (97, [10], 3) := by decide
theorem test_in_destination_after_character : after ((program [20, 5]).setInbuf [65])
    (fun t => (t.status, t.inbuf)) = some (faulted 3 5, []) := by decide
theorem test_in_out_of_range : after ((program [20, 32768]).setInbuf [128512]) (fun t => t.status) =
    some (faulted 6 128512) := by decide
theorem test_in_waits : after (program [20, 32768]) (fun t => (t.status.state, t.pc, t.console.promptCount)) =
    some (.running, 0, 1) := by decide

/-! ### Decode and fetch: 95_test_vectors.md, section 2.9 -/

theorem test_fetch_register_word : after (program [32775]) (fun t => t.status) = some (faulted 1 32775) := by decide
theorem test_fetch_operand_past_the_end : after ((State.reset.setMem [(32766, 1), (32767, 32768)]).setPc 32766)
    (fun t => (t.status, t.pc)) = some (faulted 4 32768, 32766) := by decide
theorem test_fetch_pc_past_the_end : after (State.reset.setPc 32768) (fun t => t.status) = some (faulted 4 32768) := by
  decide

/-! ### Loader: R31, R186; 95_test_vectors.md S4 -/

theorem test_loader_odd : pairBytes [0x40] = none := by decide
theorem test_loader_little_endian : pairBytes [0x40, 0x9C] = some [40000] := by decide

/-! ### Witnesses: for each statement with hypotheses, states and operands that meet them, clause by clause -/

theorem witness_ClassifyByRanges : (32767 : Word).toNat ≤ 32767 ∧ 32768 ≤ (32768 : Word).toNat ∧
    (32775 : Word).toNat ≤ 32775 ∧ 32776 ≤ (32776 : Word).toNat := by decide

theorem witness_DecodeOfEncode : Instr.wf (.set (.register .r7) (.invalid 65535)) = true := by decide

theorem witness_EncodeOfDecode : decode [9, 5, 32775, 65535, 0] =
    .ok (.add (.literal 5) (.register .r7) (.invalid 65535), [0]) := by decide

theorem witness_OpcodeDecodeIsTotal : 3 ≤ ([0, 0, 0] : List Word).length ∧ (21 : Word).toNat ≤ 21 ∧
    22 ≤ (22 : Word).toNat ∧ (program [22]).isRunning = true ∧ (program [22]).pc.toNat < 32768 ∧
    22 ≤ ((program [22]).mem.read (program [22]).pc.toNat).toNat := by decide

theorem witness_ResolveAndStoreByClass : (32767 : Word).toNat ≤ 32767 ∧ 32768 ≤ (32768 : Word).toNat ∧
    (32775 : Word).toNat ≤ 32775 ∧ 32776 ≤ (32776 : Word).toNat := by decide

theorem witness_MemAccessChecksAddress : Memory.wf [(0, 1), (32767, 2)] = true ∧ 32768 ≤ (32768 : Word).toNat ∧
    (32767 : Word).toNat < 32768 := by decide

theorem witness_CanonicalMemoryIsUnique : ∃ m n : Memory, m.wf = true ∧ n.wf = true ∧
    ∀ a, a < 32768 → m.read a = n.read a := ⟨[(3, 1)], [(3, 1)], by decide, by decide, fun _ _ => rfl⟩

theorem witness_BootHoldsTheImage : loadImage [0x12, 0x00] = .ok (padImage [18]) ∧
    ([0x12, 0x00] : List Byte)[2 * 0]? = some 0x12 ∧ ([0x12, 0x00] : List Byte)[2 * 0 + 1]? = some 0x00 ∧
    ([0x12, 0x00] : List Byte).length ≤ 2 * 1 := ⟨rfl, rfl, rfl, by decide⟩

theorem witness_LoaderAcceptsExactlyValidFiles : ([0x12] : List Byte).length % 2 = 1 ∧
    pairBytes [0x12, 0x00] = some [18] ∧ loadImage [0x12, 0x00] = .ok (padImage [18]) := ⟨rfl, rfl, rfl⟩

theorem witness_LoaderAcceptsExactlyValidFiles_largest_word : pairBytes [0x07, 0x80] = some [32775] ∧
    loadImage [0x07, 0x80] = .ok (padImage [32775]) ∧ pairBytes [0x08, 0x80] = some [32776] ∧
    loadImage [0x08, 0x80] = .error (.invalidWord 32776) := ⟨rfl, rfl, rfl, rfl⟩

theorem witness_StepRunsTheDecodedInstruction : (program [9, 32768, 1, 2]).isRunning = true ∧
    decode (program [9, 32768, 1, 2]).codeWords = .ok (.add (.register .r0) (.literal 1) (.literal 2), []) := by decide

theorem witness_StepRunsTheDecodedInstruction_last_cell :
    decode ((State.reset.setMem [(32767, 21)]).setPc 32767).codeWords = .ok (.noop, []) := by decide

theorem witness_FetchReadsTheWordsOrFaults : (State.reset.setPc 32768).isRunning = true ∧
    32768 ≤ (State.reset.setPc 32768).pc.toNat := by decide

theorem witness_FetchReadsTheWordsOrFaults_operand : ∃ s : State, s.isRunning = true ∧ s.pc.toNat < 32768 ∧
    decodeOpcode (s.mem.read s.pc.toNat) = some .add ∧ 3 ≤ Opcode.operandCount .add ∧ s.pc.toNat + 3 = 32768 :=
  ⟨(State.reset.setMem [(32765, 9)]).setPc 32765, by decide⟩

theorem witness_FetchReadsTheWordsOrFaults_fetch : ∃ s : State, s.isRunning = true ∧
    decodeOpcode (s.mem.read s.pc.toNat) = some .add ∧ s.pc.toNat + Opcode.operandCount .add < 32768 ∧
    s.pc.toNat + Opcode.operandCount .add = 32767 :=
  ⟨(State.reset.setMem [(32764, 9)]).setPc 32764, by decide⟩

theorem witness_TerminatedMachineStaysPut : (State.reset.terminate .halted).isRunning = false ∧
    ∃ t, step (program [0]) = .next t ∧ (decide (t.isRunning = false)) = true :=
  ⟨by decide, exists_next (by decide)⟩

theorem witness_SuccessOnlyByHaltOrRet : (program [18]).isRunning = true ∧
    ∃ t, step (program [18]) = .next t ∧ t.status.success = true := ⟨by decide, exists_next (by decide)⟩

theorem witness_FaultCommitsNothing : (program [3, 32768]).isRunning = true ∧
    (∃ t, step (program [3, 32768]) = .next t ∧ decide (t.status.state = .fault) = true) ∧
    ∀ d, fetchInstr (program [3, 32768]) ≠ .ok (.inp d) :=
  ⟨by decide, exists_next (by decide), fun d h => by
    have hp : fetchInstr (program [3, 32768]) = .ok (.pop (.register .r0)) := by decide
    rw [hp] at h; cases h⟩

theorem witness_FaultCodesAndInfo : 4294967295 < 2 ^ 32 := by decide

theorem witness_StepKeepsMemoryCanonical : (program [16, 32767, 1]).MemCanonical ∧
    ∃ t, step (program [16, 32767, 1]) = .next t ∧ decide (t.mem.read 32767 = 1) = true :=
  ⟨by unfold State.MemCanonical; decide, exists_next (by decide)⟩

/-- Memory with one listed cell, well formed. -/
theorem one_cell_wellFormed (v : Word) (h : v.toNat ≤ 32775) : (State.reset.setMem [(0, v)]).WellFormed := by
  refine ⟨fun a => ?_, fun r => ?_, fun x hx => by cases hx⟩
  swap
  · show (RegFile.reset.get r).toNat ≤ 32775
    cases r <;> decide
  · show (if a = 0 then v else 0).toNat ≤ 32775
    split
    · exact h
    · decide

theorem witness_StepKeepsWellFormed : (State.reset.setMem [(0, 21)]).MemCanonical ∧
    (State.reset.setMem [(0, 21)]).WellFormed ∧
    ∃ t, step (State.reset.setMem [(0, 21)]) = .next t ∧ decide (t.pc = 1) = true :=
  ⟨by unfold State.MemCanonical; decide, one_cell_wellFormed 21 (by decide), exists_next (by decide)⟩

theorem witness_WellFormedFaultsAreLimited : (State.reset.setMem [(0, 22)]).WellFormed ∧
    (State.reset.setMem [(0, 22)]).isRunning = true ∧
    ∃ t, step (State.reset.setMem [(0, 22)]) = .next t ∧
      decide (t.status.state = .fault ∧ (t.status.cause = 1 ∨ t.status.cause = 3)) = true :=
  ⟨one_cell_wellFormed 22 (by decide), by decide, exists_next (by decide)⟩

theorem witness_StepKeepsStatusConsistent : State.reset.status.Consistent ∧
    ∃ t, step State.reset = .next t ∧ decide (t.status.state = .halted) = true :=
  ⟨⟨fun _ => ⟨rfl, rfl⟩, fun h => by cases h⟩, exists_next (by decide)⟩

theorem witness_CarriageReturnsAreStripped : isBlankLine [97, 13, 10] = false ∧
    ([97, 13, 10] : List Nat).getLast? = some 10 ∧
    ∃ s t : State, s.NoReturnQueued ∧ s.isRunning = true ∧ exec (.inp (.register .r0)) s = .next t ∧ t.pc = s.pc + 2 :=
  ⟨by decide, by decide, State.reset.setInbuf [65], _, by unfold State.NoReturnQueued; decide, by decide, rfl, by decide⟩

theorem witness_InvalidOperandExactlyForSources : ∃ (s t : State), s.isRunning = true ∧
    exec (.jt (.literal 0) (.invalid 40000)) s = .next t ∧
    firstInvalid (Instr.sources (.jt (.literal 0) (.invalid 40000))) = some 40000 :=
  ⟨State.reset, _, by decide, rfl, by decide⟩

theorem witness_InvalidDestinationOnlyForNonRegisters : ∃ s t : State, s.isRunning = true ∧
    exec (.set (.literal 5) (.literal 7)) s = .next t ∧ t.status.state = .fault ∧ t.status.cause = 3 :=
  ⟨State.reset, _, by decide, rfl, by decide, by decide⟩

theorem witness_InvalidAddressOnlyByRmemWmem : ∃ s t : State, s.isRunning = true ∧
    exec (.rmem (.literal 5) (.register .r0)) s = .next t ∧ t.status.state = .fault ∧ t.status.cause = 4 :=
  ⟨State.reset.setReg .r0 40000, _, by decide, rfl, by decide, by decide⟩

theorem witness_StackUnderflowExactlyByPop : ∃ s t : State, s.isRunning = true ∧
    exec (.pop (.literal 5)) s = .next t ∧ t.status.state = .fault ∧ t.status.cause = 5 :=
  ⟨State.reset, _, by decide, rfl, by decide, by decide⟩

theorem witness_ConsoleFaultsExactlyByInOut : (∃ s t : State, s.isRunning = true ∧
      exec (.inp (.register .r0)) s = .next t ∧ consoleIn s.inbuf s.console = .char 32768 [] s.console) ∧
    (∃ s t : State, s.isRunning = true ∧ exec (.out (.literal 65)) s = .next t ∧ t.status.state = .fault ∧
      t.status.cause = 7) ∧
    ∃ (s : State) (k : Console), consoleIn s.inbuf s.console = .failed k :=
  ⟨⟨State.reset.setInbuf [32768], _, by decide, rfl, rfl⟩, ⟨failing State.reset, _, by decide, rfl, by decide, by decide⟩,
    ⟨failing State.reset, _, rfl⟩⟩

theorem witness_DivideByZeroExactlyByMod : ∃ s t : State, s.isRunning = true ∧
    exec (.mod (.literal 5) (.literal 5) (.register .r3)) s = .next t ∧ t.status.state = .fault ∧ t.status.cause = 8 :=
  ⟨State.reset, _, by decide, rfl, by decide, by decide⟩

theorem witness_RegisterFrame : ∃ s t : State, exec (.add (.register .r1) (.literal 1) (.literal 2)) s = .next t ∧
    Instr.destination (.add (.register .r1) (.literal 1) (.literal 2)) ≠ some (.register .r0) :=
  ⟨State.reset, _, rfl, by decide⟩

theorem witness_MemoryFrame : ∃ s t : State, exec (.wmem (.register .r0) (.literal 1)) s = .next t ∧
    resolve s (.register .r0) = .ok 32767 ∧ exec .noop s = .next (s.advance 0) ∧
    resolve s (.invalid 40000) = .error (.invalidOperand 40000) :=
  ⟨State.reset.setReg .r0 32767, _, rfl, rfl, rfl, rfl⟩

theorem witness_StackFrame : ∃ s t u v : State, exec .noop s = .next t ∧ exec (.push (.literal 1)) s = .next u ∧
    exec .ret s = .next v ∧ Opcode.noop ∉ [Opcode.push, .pop, .call, .ret] :=
  ⟨State.reset.setStack [1], _, _, _, rfl, rfl, rfl, by decide⟩

theorem witness_ConsoleFrame : ∃ s t u v : State, exec .noop s = .next t ∧ exec (.inp (.register .r0)) s = .next u ∧
    exec (.out (.literal 65)) s = .next v := ⟨State.reset.setInbuf [65], _, _, _, rfl, rfl, rfl⟩

theorem witness_StatusFrame : ∃ s t : State, exec .halt s = .next t := ⟨State.reset, _, rfl⟩

theorem witness_NextInstructionPointer : ∃ s t u v x : State, s.isRunning = true ∧
    (exec (.pop (.register .r0)) s = .next t ∧ t.isRunning = true) ∧ (exec .ret s = .next u ∧ s.stack = 7 :: []) ∧
    (exec (.inp (.register .r0)) s = .next v ∧ v.isRunning = true) ∧ (exec .halt s = .next x ∧ x.isRunning = false) :=
  ⟨State.reset.setStack [7], _, _, _, _, by decide, ⟨rfl, by decide⟩, ⟨rfl, rfl⟩, ⟨rfl, by decide⟩, ⟨rfl, by decide⟩⟩

theorem witness_NextInstructionPointer_jumps : resolve State.reset (.literal 50) = .ok 50 ∧
    resolve State.reset (.register .r0) = .ok 0 ∧ (∃ t, exec (.jt (.literal 50) (.register .r0)) State.reset = .next t) ∧
    (∃ t, exec (.jf (.literal 50) (.register .r0)) State.reset = .next t) ∧
    (∃ t, exec (.call (.literal 50)) State.reset = .next t) := ⟨rfl, rfl, ⟨_, rfl⟩, ⟨_, rfl⟩, ⟨_, rfl⟩⟩

/-- The operands of the result statements: every source that resolves and every one that does not, every destination
that is a register and every one that is not. -/
theorem witness_operands : resolve State.reset (.literal 32767) = .ok 32767 ∧ resolve State.reset (.register .r7) = .ok 0 ∧
    resolve State.reset (.invalid 40000) = .error (.invalidOperand 40000) ∧ checkdest (.register .r7) = .ok .r7 ∧
    checkdest (.literal 5) = .error (.invalidDestination 5) ∧
    checkdest (.invalid 40000) = .error (.invalidDestination 40000) := ⟨rfl, rfl, rfl, rfl, rfl, rfl⟩

theorem witness_SetCopiesTheValue : resolve State.reset (.literal 32767) = .ok 32767 ∧
    resolve State.reset (.register .r7) = .ok 0 ∧ resolve State.reset (.invalid 40000) = .error (.invalidOperand 40000) ∧
    checkdest (.register .r7) = .ok .r7 ∧ checkdest (.literal 5) = .error (.invalidDestination 5) :=
  ⟨rfl, rfl, rfl, rfl, rfl⟩

theorem witness_PushPutsTheValueOnTop : resolve State.reset (.literal 32767) = .ok 32767 ∧
    resolve State.reset (.register .r7) = .ok 0 ∧ resolve State.reset (.invalid 40000) = .error (.invalidOperand 40000) ∧
    checkdest (.register .r7) = .ok .r7 ∧ checkdest (.literal 5) = .error (.invalidDestination 5) :=
  ⟨rfl, rfl, rfl, rfl, rfl⟩

theorem witness_EqAndGtCompareWords : resolve State.reset (.literal 32767) = .ok 32767 ∧
    resolve State.reset (.register .r7) = .ok 0 ∧ resolve State.reset (.invalid 40000) = .error (.invalidOperand 40000) ∧
    checkdest (.register .r7) = .ok .r7 ∧ checkdest (.literal 5) = .error (.invalidDestination 5) ∧ Spec.noOwnFault 32767 0 = none :=
  ⟨rfl, rfl, rfl, rfl, rfl, rfl⟩

theorem witness_JmpGoesToTheTarget : resolve State.reset (.literal 32767) = .ok 32767 ∧
    resolve State.reset (.register .r7) = .ok 0 ∧ resolve State.reset (.invalid 40000) = .error (.invalidOperand 40000) ∧
    checkdest (.register .r7) = .ok .r7 ∧ checkdest (.literal 5) = .error (.invalidDestination 5) :=
  ⟨rfl, rfl, rfl, rfl, rfl⟩

theorem witness_AddAndMultAreModulo32768 : resolve State.reset (.literal 32767) = .ok 32767 ∧
    resolve State.reset (.register .r7) = .ok 0 ∧ resolve State.reset (.invalid 40000) = .error (.invalidOperand 40000) ∧
    checkdest (.register .r7) = .ok .r7 ∧ checkdest (.literal 5) = .error (.invalidDestination 5) ∧ Spec.noOwnFault 32767 0 = none :=
  ⟨rfl, rfl, rfl, rfl, rfl, rfl⟩

theorem witness_AndAndOrAreBitwise : resolve State.reset (.literal 32767) = .ok 32767 ∧
    resolve State.reset (.register .r7) = .ok 0 ∧ resolve State.reset (.invalid 40000) = .error (.invalidOperand 40000) ∧
    checkdest (.register .r7) = .ok .r7 ∧ checkdest (.literal 5) = .error (.invalidDestination 5) ∧ Spec.noOwnFault 32767 0 = none :=
  ⟨rfl, rfl, rfl, rfl, rfl, rfl⟩

theorem witness_NotInvertsFifteenBits : resolve State.reset (.literal 32767) = .ok 32767 ∧
    resolve State.reset (.register .r7) = .ok 0 ∧ resolve State.reset (.invalid 40000) = .error (.invalidOperand 40000) ∧
    checkdest (.register .r7) = .ok .r7 ∧ checkdest (.literal 5) = .error (.invalidDestination 5) :=
  ⟨rfl, rfl, rfl, rfl, rfl⟩

theorem witness_CallPushesTheReturnAddress : resolve State.reset (.literal 32767) = .ok 32767 ∧
    resolve State.reset (.register .r7) = .ok 0 ∧ resolve State.reset (.invalid 40000) = .error (.invalidOperand 40000) ∧
    checkdest (.register .r7) = .ok .r7 ∧ checkdest (.literal 5) = .error (.invalidDestination 5) :=
  ⟨rfl, rfl, rfl, rfl, rfl⟩

theorem witness_PopTakesTheTop : State.reset.stack = [] ∧ (State.reset.setStack [9, 4]).stack = 9 :: [4] ∧
    checkdest (.register .r7) = .ok .r7 ∧ checkdest (.literal 5) = .error (.invalidDestination 5) := ⟨rfl, rfl, rfl, rfl⟩

theorem witness_JtAndJfAreComplements : resolve State.reset (.register .r0) = .ok 0 ∧
    resolve State.reset (.literal 3) = .ok 3 ∧ (3 : Word) ≠ 0 ∧
    resolve State.reset (.invalid 40000) = .error (.invalidOperand 40000) := ⟨rfl, rfl, by decide, rfl⟩

theorem witness_ModIsTheRemainder : resolve State.reset (.literal 17) = .ok 17 ∧ resolve State.reset (.literal 5) = .ok 5 ∧
    Spec.zeroDivisor 17 5 = none ∧ resolve State.reset (.register .r0) = .ok 0 ∧
    Spec.zeroDivisor 17 0 = some .divideByZero ∧ checkdest (.register .r0) = .ok .r0 ∧
    checkdest (.literal 5) = .error (.invalidDestination 5) := ⟨rfl, rfl, by decide, rfl, by decide, rfl, rfl⟩

theorem witness_AluResultsAreReduced : ∃ s t : State, s.isRunning = true ∧
    exec (.not (.register .r0) (.register .r0)) s = .next t ∧ t.isRunning = true ∧
    Instr.destination (.not (.register .r0) (.register .r0)) = some (.register .r0) ∧
    Opcode.not ∈ [Opcode.eq, .gt, .add, .mult, .mod, .and, .or, .not] :=
  ⟨State.reset.setReg .r0 32775, _, by decide, rfl, by decide, rfl, by decide⟩

theorem witness_RmemLoadsTheCell : resolve State.reset (.literal 32767) = .ok 32767 ∧ (32767 : Word).toNat < 32768 ∧
    resolve (State.reset.setReg .r0 32768) (.register .r0) = .ok 32768 ∧ 32768 ≤ (32768 : Word).toNat ∧
    checkdest (.register .r7) = .ok .r7 ∧ checkdest (.literal 5) = .error (.invalidDestination 5) :=
  ⟨rfl, by decide, rfl, by decide, rfl, rfl⟩

theorem witness_WmemStoresTheWord : State.reset.MemCanonical ∧ resolve State.reset (.literal 32767) = .ok 32767 ∧
    (32767 : Word).toNat < 32768 ∧ resolve (State.reset.setReg .r0 32768) (.register .r0) = .ok 32768 ∧
    32768 ≤ (32768 : Word).toNat ∧ resolve State.reset (.invalid 40000) = .error (.invalidOperand 40000) :=
  ⟨rfl, rfl, by decide, rfl, by decide, rfl⟩

theorem witness_StoreIsSeenByTheNextFetch : ∃ s t u : State, s.MemCanonical ∧ s.isRunning = true ∧
    resolve s (.literal 3) = .ok 3 ∧ 3 = s.pc + 3 ∧ resolve s (.literal 0) = .ok 0 ∧
    exec (.wmem (.literal 3) (.literal 0)) s = .next t ∧ exec (.wmem (.literal 3) (.literal 22)) s = .next u :=
  ⟨State.reset, _, _, rfl, by decide, rfl, by decide, rfl, rfl, rfl⟩

theorem witness_RetPopsOrEndsTheRun : State.reset.stack = [] ∧ (State.reset.setStack [12]).stack = 12 :: [] := ⟨rfl, rfl⟩

theorem witness_OutWritesOneWord : resolve State.reset (.literal 65) = .ok 65 ∧
    (∃ c, State.reset.console.write (.out 65) = some c) ∧ (failing State.reset).console.write (.out 65) = none ∧
    resolve State.reset (.invalid 40000) = .error (.invalidOperand 40000) := ⟨rfl, ⟨_, rfl⟩, rfl, rfl⟩

theorem witness_InReadsOneCharacter :
    consoleIn (State.reset.setInbuf [32767, 10]).inbuf State.reset.console = .char 32767 [10] State.reset.console ∧
    consoleIn (State.reset.setInbuf [32768]).inbuf State.reset.console = .char 32768 [] State.reset.console ∧
    (∃ k, consoleIn State.reset.inbuf State.reset.console = .waiting k) ∧
    (∃ k, consoleIn State.reset.inbuf (failing State.reset).console = .failed k) ∧
    checkdest (.register .r7) = .ok .r7 ∧ checkdest (.literal 5) = .error (.invalidDestination 5) :=
  ⟨rfl, rfl, ⟨_, rfl⟩, ⟨_, rfl⟩, rfl, rfl⟩

theorem witness_RefillSkipsBlankLines : ∃ s : State, s.inbuf = [] ∧
    s.console.answers = [.line [10], .line [32, 13, 10]] ++ .line [13, 97, 10] :: [] ∧
    Spec.promptsBefore s.console.awaiting 2 = 3 ∧ s.console.writesLeft = some 3 ∧
    (∀ b ∈ [LineAnswer.line [10], .line [32, 13, 10]], Spec.isBlankAnswer b = true) ∧
    isBlankLine [13, 97, 10] = false ∧ ([13, 97, 10] : List Nat).getLast? = some 10 ∧
    ([13, 97, 10] : List Nat).filter (fun x => decide (x ≠ 13)) = 97 :: [10] ∧ 97 < 32768 :=
  ⟨writing 3 (supplying State.reset [[10], [32, 13, 10], [13, 97, 10]]), rfl, rfl, rfl, rfl, by decide, by decide,
    by decide, by decide, by decide⟩

/-- R135, R142: the line of an `in` that has prompted and waits arrives; no second prompt is written for it. -/
theorem witness_RefillSkipsBlankLines_arrival : ∃ s : State, s.inbuf = [] ∧ s.console.answers = [] ∧
    s.console.awaiting = true ∧ s.console.promptCount = 1 ∧
    ∃ t, exec (.inp (.register .r0)) (s.supply (.line [97, 10])) = .next t ∧
      decide (t.regs.r0 = 97 ∧ t.console.promptCount = 1) = true :=
  ⟨State.reset.setConsole { Console.reset with awaiting := true, transcript := [.prompt] }, rfl, rfl, rfl, rfl,
    exists_next (by decide)⟩

/-- R135, R141: the read behind a blank line fails; the write of the second prompt fails; and the write of the first,
whatever the answers are. -/
theorem witness_InFailsWhenTheConsoleFails : ∃ s u v : State, s.inbuf = [] ∧
    s.console.answers = [.line [10]] ++ .failure :: [.line [97, 10]] ∧ s.console.writesLeft = some 2 ∧
    Spec.promptsBefore s.console.awaiting 1 = 2 ∧ u.console.writesLeft = some 1 ∧
    1 < Spec.promptsBefore u.console.awaiting 1 ∧ v.console.awaiting = false ∧ v.console.writesLeft = some 0 ∧
    [s, u, v].all (fun x => (nextState (exec (.inp (.register .r0)) x)).any fun t =>
      decide (t.status = faulted 7 0 ∧ t.pc = x.pc ∧ t.inbuf = [])) = true :=
  ⟨writing 2 (State.reset.setConsole { Console.reset with answers := [.line [10], .failure, .line [97, 10]] }),
    writing 1 (supplying State.reset [[10], [97, 10]]), writing 0 (supplying State.reset [[97, 10]]),
    rfl, rfl, rfl, rfl, rfl, by decide, rfl, rfl, by decide⟩

theorem witness_InWaitsWithoutInput : ∃ s : State, s.Runs (.inp (.register .r0)) ∧ s.inbuf = [] ∧
    s.console.writesLeft = some 2 ∧ Spec.promptsBefore s.console.awaiting s.console.answers.length = 2 ∧
    (∀ b ∈ s.console.answers, Spec.isBlankAnswer b = true) ∧
    ∃ t, step s = .next t ∧ decide (t.console.promptCount = 2) = true :=
  ⟨writing 2 (supplying (program [20, 32768]) [[10]]), ⟨by decide, by decide⟩, rfl, rfl, rfl, by decide,
    exists_next (by decide)⟩

theorem witness_PlacedInstructionRunsNext : State.reset.MemCanonical ∧ decodeTableWord 16 20 = some (.inp (.literal 0)) :=
  ⟨rfl, by decide⟩

end Sys2Proof.Tests
end

section
/-! Registers as operand words and as storage (R10, R54, R55). -/

namespace Sys2Proof

theorem Reg.number_injective : Function.Injective Reg.number :=
  Function.LeftInverse.injective Reg.ofNumber_number

/-- The middle range of the classifier (R55): the words 32768..32775 name registers by their low three bits. -/
theorem classify_of_register_range {w : Word} (hlo : 32768 ≤ w.toNat) (hhi : w.toNat ≤ 32775) :
    classify w = .register (Reg.ofNumber (w.toNat % 8)) := by
  rw [classify, if_neg (by omega), if_pos hhi]

/-- The operand word of a register (R54) names that register. -/
@[simp] theorem classify_register_word (r : Reg) : classify (Operand.register r).word = .register r := by
  have hr : r.number < 8 := r.number_lt
  have hw : (Operand.register r).word.toNat = 32768 + r.number :=
    (BitVec.toNat_ofNat ..).trans (Nat.mod_eq_of_lt (by omega))
  have hlow : (32768 + r.number) % 8 = r.number := by omega
  rw [classify_of_register_range (by omega) (by omega), hw, hlow, Reg.ofNumber_number]

namespace Machine

/-- A write replaces one register and no other. -/
theorem RegFile.get_set (f : RegFile) (r q : Reg) (v : Word) :
    (f.set r v).get q = if q = r then v else f.get q := by
  split
  next h => rw [h, RegFile.get_set_same]
  next h => exact RegFile.get_set_other f v h

end Machine

namespace Proofs

/-- Settles O6: `Reg.number` is a bijection with 0..7 that the operand words follow, and the register file obeys the
read-after-write law. -/
theorem registersAreIndependent : Obligations.RegistersAreIndependent :=
  ⟨fun _ h => ⟨_, Reg.number_ofNumber h⟩, fun r => ⟨r.number_lt, classify_register_word r⟩,
    fun _ _ h => Reg.number_injective h, Machine.RegFile.get_set⟩

end Proofs
end Sys2Proof
end

section
/-! The accesses of memory as a program sees them (20_memory.md R33, R34): what `memRead` returns after a `memWrite`. -/

namespace Sys2Proof

namespace Machine

/-- The word written is the word read back, whole and unmasked (R34). -/
theorem memRead_memWrite_same {m m' : Memory} {a v : Word} (hm : m.wf = true) (hw : memWrite m a v = .ok m') :
    memRead m' a = .ok v := by
  obtain ⟨ha, rfl⟩ := memWrite_eq_ok.mp hw
  exact memRead_eq_ok.mpr ⟨ha, (Memory.read_write_same hm).symm⟩

/-- No other cell changes (R34). -/
theorem read_memWrite_other {m m' : Memory} {a v : Word} {b : Nat} (hw : memWrite m a v = .ok m') (hb : b ≠ a.toNat) :
    m'.read b = m.read b := by
  obtain ⟨-, rfl⟩ := memWrite_eq_ok.mp hw
  exact Memory.read_write_other v m hb

end Machine

namespace Proofs
open Machine

/-- Settles O8, by the bound on the address: from 32768 on both accesses raise; below it the read is the cell, and the
write gives a memory that the laws of `memWrite` describe. -/
theorem memAccessChecksAddress : Obligations.MemAccessChecksAddress := by
  intro m a v hm
  constructor
  · intro hout
    exact ⟨memRead_eq_error.mpr ⟨hout, rfl⟩, memWrite_eq_error.mpr ⟨hout, rfl⟩⟩
  · intro hin
    have hw : memWrite m a v = .ok (m.write a.toNat v) := memWrite_eq_ok.mpr ⟨hin, rfl⟩
    exact ⟨memRead_eq_ok.mpr ⟨hin, rfl⟩, _, hw, memWrite_wf hm hw, memRead_memWrite_same hm hw,
      fun _ hb => read_memWrite_other hw hb⟩

end Proofs
end Sys2Proof
end

section
/-! The classifier on its lowest and its highest range (30_encoding.md R55), beside `classify_of_register_range`. -/

namespace Sys2Proof

/-- The lowest range of the classifier (R55): the words 0..32767 are literals, by their low fifteen bits. -/
theorem classify_of_literal_range {w : Word} (h : w.toNat ≤ 32767) : classify w = .literal (w.setWidth 15) :=
  if_pos h

/-- The highest range of the classifier (R55): the words from 32776 on are invalid. -/
theorem classify_of_invalid_range {w : Word} (h : 32776 ≤ w.toNat) : classify w = .invalid w := by
  rw [classify, if_neg (by omega), if_neg (by omega)]

namespace Proofs

/-- Settles O1, range by range: a literal's fifteen bits hold the whole word, and the low three bits of a register's
word are its distance from 32768. -/
theorem classifyByRanges : Obligations.ClassifyByRanges := by
  intro w
  refine ⟨fun hlit => ?literal, fun hlo hhi => ?register, classify_of_invalid_range⟩
  case literal =>
    have hval : (w.setWidth 15).toNat = w.toNat :=
      (BitVec.toNat_setWidth ..).trans (Nat.mod_eq_of_lt (by omega))
    exact ⟨_, classify_of_literal_range hlit, hval⟩
  case register =>
    have hlow : w.toNat % 8 = w.toNat - 32768 := by omega
    have hnum : (Reg.ofNumber (w.toNat % 8)).number = w.toNat % 8 := Reg.number_ofNumber (Nat.mod_lt _ (by decide))
    exact ⟨_, classify_of_register_range hlo hhi, hnum.trans hlow⟩

end Proofs
end Sys2Proof
end

section
/-! Operand words and decode (30_encoding.md R50 to R54, 40_fetch_decode_execute.md R72):
classifying keeps the word, and the words of an assembled instruction are the words it was assembled from. -/

namespace Sys2Proof

/-- Classifying an operand word loses nothing of it (R54). -/
@[simp] theorem word_classify (w : Word) : (classify w).word = w := by
  obtain ⟨hlit, hreg, hinv⟩ := Proofs.classifyByRanges w
  obtain h | ⟨hlo, hhi⟩ | h : w.toNat ≤ 32767 ∨ (32768 ≤ w.toNat ∧ w.toNat ≤ 32775) ∨ 32776 ≤ w.toNat := by omega
  · obtain ⟨v, hv, hval⟩ := hlit h
    rw [hv]
    exact BitVec.eq_of_toNat_eq ((BitVec.toNat_setWidth_of_le (by decide)).trans hval)
  · obtain ⟨r, hr, hnum⟩ := hreg hlo hhi
    have hsum : 32768 + r.number = w.toNat := by omega
    rw [hr, Operand.word, hsum, BitVec.ofNat_toNat, BitVec.setWidth_eq]
  · rw [hinv h, Operand.word]

/-- No two opcode words select the same opcode (R52). -/
theorem decodeOpcode_injective {v w : Word} {o : Opcode} (hv : decodeOpcode v = some o) (hw : decodeOpcode w = some o) :
    v = w := by
  obtain ⟨hlt, -⟩ := List.getElem?_eq_some_iff.mp hv
  exact BitVec.eq_of_toNat_eq ((List.getElem?_inj hlt opcodeTable_nodup).mp (hv.trans hw.symm))

theorem Opcode.operandCount_le (o : Opcode) : o.operandCount ≤ 3 := by cases o <;> decide

@[simp] theorem assemble_opcode (o : Opcode) (ws : List Word) : (assemble o ws).opcode = o := by cases o <;> rfl

/-- The length and the opcode word of every instruction (R50, R52). -/
theorem encode_layout (i : Instr) : Laws.Layout.Statement i := by
  open Laws.Layout in
  cases i
  exacts [halt, set .., push .., pop .., eq .., gt .., jmp .., jt .., jf .., add .., mult .., mod .., and .., or ..,
    not .., rmem .., wmem .., call .., ret, out .., inp .., noop]

/-- The first word of an instruction is the one word that decodes to its opcode (R51, R52). -/
theorem encode_eq_cons {i : Instr} {w : Word} (hw : decodeOpcode w = some i.opcode) : encode i = w :: (encode i).tail := by
  obtain ⟨-, hhead⟩ := encode_layout i
  obtain ⟨v, hv, hdec⟩ := Option.bind_eq_some_iff.mp hhead
  rw [decodeOpcode_injective hw hdec]
  exact List.eq_cons_of_mem_head? hv

/-- Behind the opcode word of an assembled instruction stand the operand words, each by its position (R50). -/
theorem encode_assemble_tail (o : Opcode) (ws : List Word) :
    (encode (assemble o ws)).tail = (List.range o.operandCount).map (ws.getD · 0) := by
  cases o <;> simp [assemble, encode, operandAt, Opcode.operandCount, List.range_succ]

/-- The words of an assembled instruction are its opcode word and the operand words it was assembled from (R50). -/
theorem encode_assemble {w : Word} {o : Opcode} {ws : List Word} (hw : decodeOpcode w = some o)
    (hlen : o.operandCount ≤ ws.length) : encode (assemble o ws) = w :: ws.take o.operandCount := by
  have htake : (List.range o.operandCount).map (ws.getD · 0) = ws.take o.operandCount := by
    refine List.ext_getElem (by simpa using hlen) fun k hk _ => ?_
    have hkn : k < o.operandCount := by simpa using hk
    simp [hkn.trans_le hlen]
  rw [encode_eq_cons (by rwa [assemble_opcode]), encode_assemble_tail, htake]

/-- Decode behind an opcode word with enough words after it (R50, R72). -/
theorem decode_cons_of_some {w : Word} {o : Opcode} {rest : List Word} (hw : decodeOpcode w = some o)
    (hlen : o.operandCount ≤ rest.length) : decode (w :: rest) = .ok (assemble o rest, rest.drop o.operandCount) := by
  simp [decode, hw, Nat.not_lt.mpr hlen]

/-- Decode behind a word that is no opcode (R57, R72). -/
theorem decode_cons_of_none {w : Word} (rest : List Word) (hw : decodeOpcode w = none) :
    decode (w :: rest) = .error (.invalidOpcode w) := by
  simp [decode, hw]

end Sys2Proof
end

section
/-! The operand resolver by the class of the operand word (40_fetch_decode_execute.md R73, R74). -/

namespace Sys2Proof

namespace Machine

/-- A word that is no register reference is no destination (R74). -/
theorem checkdest_classify_error {w : Word} (h : ∀ r, classify w ≠ .register r) :
    checkdest (classify w) = .error (.invalidDestination w) :=
  checkdest_eq_error.mpr ⟨h, by rw [word_classify]⟩

/-- Nothing is stored through a word that is no register reference (R74). -/
theorem store_classify_error {s : State} {w v : Word} (h : ∀ r, classify w ≠ .register r) :
    store s (classify w) v = .error (.invalidDestination w) :=
  store_eq_error.mpr ⟨h, by rw [word_classify]⟩

end Machine

namespace Proofs
open Machine

/-- Settles O7, class by class of the classifier; what a destination does with a literal and with an invalid word is
one argument, as neither is a register reference. -/
theorem resolveAndStoreByClass : Obligations.ResolveAndStoreByClass := by
  intro s w v
  obtain ⟨hlit, hreg, hinv⟩ := classifyByRanges w
  refine ⟨fun h => ?literal, fun hlo hhi => ?register, fun h => ?invalid⟩
  case literal =>
    obtain ⟨l, hl, -⟩ := hlit h
    have hdest : ∀ r, classify w ≠ .register r := by simp [hl]
    have hw : w = l.setWidth 16 := by rw [← word_classify w, hl, Operand.word]
    exact ⟨resolve_eq_ok.mpr (.inl ⟨l, hl, hw⟩), checkdest_classify_error hdest, store_classify_error hdest⟩
  case register =>
    obtain ⟨r, hr, hnum⟩ := hreg hlo hhi
    exact ⟨r, hnum, resolve_eq_ok.mpr (.inr ⟨r, hr, rfl⟩), checkdest_eq_ok.mpr hr, store_eq_ok.mpr ⟨r, hr, rfl⟩,
      RegFile.get_set_same ..⟩
  case invalid =>
    have hdest : ∀ r, classify w ≠ .register r := by simp [hinv h]
    exact ⟨resolve_eq_error.mpr ⟨w, hinv h, rfl⟩, checkdest_classify_error hdest, store_classify_error hdest⟩

end Proofs
end Sys2Proof
end

section
/-! Phases 1 to 3 of the instruction cycle as equations (R70 to R72, R75): what the fetch unit answers in each of its
four cases, and what a step of a running machine makes of it. -/

namespace Sys2Proof

namespace Machine

/-- Phases 4 to 7 follow a fetch that completes (R75). -/
theorem step_of_fetchInstr_ok {s : State} {i : Instr} (hrun : s.isRunning = true) (hf : fetchInstr s = .ok i) :
    step s = exec i s := by
  simp [step, hrun, hf]

/-- A fault of the fetch is fault entry (R75, R153). -/
theorem step_of_fetchInstr_error {s : State} {f : Raise} (hrun : s.isRunning = true) (hf : fetchInstr s = .error f) :
    step s = .next (s.raise f) := by
  simp [step, hrun, hf]

/-- The opcode fetch behind the end of memory (R70). -/
theorem fetchInstr_of_pc_out {s : State} (hpc : 32768 ≤ s.pc.toNat) :
    fetchInstr s = .error (.invalidAddress s.pc) := by
  cases hf : fetchInstr s with
  | ok i =>
    obtain ⟨o, -, hfit, -⟩ := fetchInstr_eq_ok hf
    omega
  | error f =>
    obtain ⟨-, rfl⟩ | ⟨hlt, -⟩ | ⟨-, hlt, -⟩ := fetchInstr_eq_error hf
    · rfl
    all_goals omega

/-- A word that is no opcode, in memory: no operand word is fetched (R72). -/
theorem fetchInstr_of_decodeOpcode_none {s : State} (hpc : s.pc.toNat < 32768)
    (hnone : decodeOpcode (s.mem.read s.pc.toNat) = none) :
    fetchInstr s = .error (.invalidOpcode (s.mem.read s.pc.toNat)) := by
  cases hf : fetchInstr s with
  | ok i =>
    obtain ⟨o, ho, -⟩ := fetchInstr_eq_ok hf
    simp [hnone] at ho
  | error f =>
    obtain ⟨hge, -⟩ | ⟨-, -, rfl⟩ | ⟨o, -, ho, -⟩ := fetchInstr_eq_error hf
    · omega
    · rfl
    · simp [hnone] at ho

section
variable {s : State} {o : Opcode} (ho : decodeOpcode (s.mem.read s.pc.toNat) = some o)
include ho

/-- An opcode all of whose operand words are in memory (R71). -/
theorem fetchInstr_of_operands_fit (hfit : s.pc.toNat + o.operandCount < 32768) :
    fetchInstr s =
      .ok (assemble o ((List.range o.operandCount).map fun k => s.mem.read (s.pc.toNat + 1 + k))) := by
  cases hf : fetchInstr s with
  | ok i =>
    obtain ⟨o', ho', -, rfl⟩ := fetchInstr_eq_ok hf
    obtain rfl : o = o' := Option.some.inj (ho.symm.trans ho')
    rfl
  | error f =>
    obtain ⟨hge, -⟩ | ⟨-, hnone, -⟩ | ⟨o', -, ho', hout, -⟩ := fetchInstr_eq_error hf
    · omega
    · simp [hnone] at ho
    · obtain rfl : o = o' := Option.some.inj (ho.symm.trans ho')
      omega

/-- An opcode with an operand word behind the end of memory: the first address that does not exist is 32768 (R71). -/
theorem fetchInstr_of_operands_out (hpc : s.pc.toNat < 32768) (hout : 32768 ≤ s.pc.toNat + o.operandCount) :
    fetchInstr s = .error (.invalidAddress 32768) := by
  cases hf : fetchInstr s with
  | ok i =>
    obtain ⟨o', ho', hfit, -⟩ := fetchInstr_eq_ok hf
    obtain rfl : o = o' := Option.some.inj (ho.symm.trans ho')
    omega
  | error f =>
    obtain ⟨hge, -⟩ | ⟨-, hnone, -⟩ | ⟨-, -, -, -, rfl⟩ := fetchInstr_eq_error hf
    · omega
    · simp [hnone] at ho
    · rfl

end

end Machine

namespace Proofs
open Machine

/-- The opcode map of the statements is the decoder's table, each opcode beside its operand count (R52). -/
theorem opcodeMap_eq : Spec.opcodeMap = opcodeTable.map fun o => (o, o.operandCount) := rfl

/-- Settles O4, by what `decodeOpcode` answers for the opcode word: an opcode for the words 0..21, and then its
instruction is assembled from the words behind it; nothing from 22 on, and then neither `decode` nor the fetch unit
looks at them. -/
theorem opcodeDecodeIsTotal : Obligations.OpcodeDecodeIsTotal := by
  refine ⟨fun w rest hlen hw => ?selects, fun w rest hw => ?decodeFaults, fun s hrun hpc hw => ?stepFaults⟩
  case selects =>
    obtain ⟨o, ho⟩ : ∃ o, decodeOpcode w = some o :=
      Option.ne_none_iff_exists'.mp (mt decodeOpcode_eq_none.mp (by omega))
    have hfits : o.operandCount ≤ rest.length := o.operandCount_le.trans hlen
    obtain ⟨hlength, -⟩ := encode_layout (assemble o rest)
    refine ⟨assemble o rest, ?_, by rw [encode_assemble ho hfits, List.head?_cons], hlength, ?_⟩
    · rw [assemble_opcode, decode_cons_of_some ho hfits]
    · rw [assemble_opcode, opcodeMap_eq, List.getElem?_map, ← decodeOpcode, ho, Option.map_some]
  case decodeFaults => exact decode_cons_of_none rest (decodeOpcode_eq_none.mpr hw)
  case stepFaults =>
    exact step_of_fetchInstr_error hrun (fetchInstr_of_decodeOpcode_none hpc (decodeOpcode_eq_none.mpr hw))

/-- Settles O14, by the cases of the fetch unit: the instruction assembled from the cells behind IP is encoded by
exactly the cells from IP upward, and the operand address that leaves memory is 32768. -/
theorem fetchReadsTheWordsOrFaults : Obligations.FetchReadsTheWordsOrFaults := by
  refine ⟨fun s o hrun ho hfit => ?fits, fun s hrun hpc => ?pcOut, fun s o k hrun hpc ho _ hk haddr => ?operandOut⟩
  case fits =>
    refine ⟨_, ?_, step_of_fetchInstr_ok hrun (fetchInstr_of_operands_fit ho hfit)⟩
    rw [encode_assemble ho (by simp), List.take_of_length_le (by simp), Nat.add_comm 1, List.range_succ_eq_map,
      List.map_cons, List.map_map]
    simp [Function.comp_def, Nat.add_assoc, Nat.add_comm 1]
  case pcOut => exact step_of_fetchInstr_error hrun (fetchInstr_of_pc_out hpc)
  case operandOut =>
    have hend : s.pc + BitVec.ofNat 16 k = 32768 := by
      apply BitVec.eq_of_toNat_eq
      simp [BitVec.toNat_add, haddr]
    rw [hend]
    exact step_of_fetchInstr_error hrun (fetchInstr_of_operands_out ho hpc (by omega))

end Proofs
end Sys2Proof
end

section
/-! halt and noop (41_halt_noop.md R90, R91), and the step of a machine that has terminated (60_exceptions.md R150). -/

namespace Sys2Proof

namespace Machine

/-- A machine that has terminated executes nothing (R150). -/
theorem step_of_not_running {s : State} (h : s.isRunning = false) : step s = .next s := by
  obtain ⟨-, hidle⟩ | ⟨hrun, -⟩ | ⟨hrun, -⟩ := step_cases s
  · exact hidle
  all_goals simp [State.isRunning, hrun] at h

@[simp] theorem State.terminate_isRunning (s : State) (st : RunState) :
    (s.terminate st).isRunning = decide (st = .running) := rfl

/-- What `halt` does (R90). -/
theorem exec_halt (s : State) : exec .halt s = .next (s.terminate .halted) := rfl

/-- What `noop` does (R91): without operand words the next instruction is one word on (R76). -/
theorem exec_noop (s : State) : exec .noop s = .next (s.setPc (s.pc + 1)) := rfl

end Machine

namespace Proofs
open Machine

/-- Settles O38: `halt` is `terminate`, which changes `STATUS.state` alone and leaves a machine that is not running, so
that the next step idles; `noop` is its IP update. -/
theorem haltTerminatesNoopAdvances : Obligations.HaltTerminatesNoopAdvances := by
  refine ⟨rfl, rfl, fun s => ⟨?halt, exec_noop s⟩⟩
  have hstopped : (s.terminate .halted).isRunning = false := by simp
  exact ⟨s.terminate .halted, exec_halt s, s.terminate_status .halted, s.terminate_pc .halted, s.terminate_regs .halted,
    s.terminate_mem .halted, s.terminate_stack .halted, s.terminate_inbuf .halted, s.terminate_console .halted,
    step_of_not_running hstopped⟩

end Proofs
end Sys2Proof
end

section
/-! set, push and pop (42_set_push_pop.md R95 to R97): one equation per way each of them can go. -/

namespace Sys2Proof

namespace Machine

/-- An instruction with one operand word moves IP by two (R76). -/
theorem State.advance_one (s : State) : s.advance 1 = s.setPc (s.pc + 2) := rfl

/-- An instruction with two operand words moves IP by three (R76). -/
theorem State.advance_two (s : State) : s.advance 2 = s.setPc (s.pc + 3) := rfl

section
variable {s : State} {d a : Operand} {v : Word} {r : Reg} {f : Raise} {rest : List Word}

/-- `store` raises what `checkdest` raises (R74). -/
theorem store_of_checkdest_error (hd : checkdest d = .error f) : store s d v = .error f :=
  store_eq_error.mpr (checkdest_eq_error.mp hd)

/-- `store` writes the register `checkdest` gives (R74). -/
theorem store_of_checkdest_ok (hd : checkdest d = .ok r) : store s d v = .ok (s.setReg r v) :=
  store_eq_ok.mpr ⟨r, checkdest_eq_ok.mp hd, rfl⟩

/-- An instruction with one source raises what the source raises, whatever its destination is (R155, R160). -/
theorem exec_of_source_error {i : Instr} (hi : i.sources = [a]) (ha : resolve s a = .error f) :
    exec i s = .next (s.raise f) := by
  obtain ⟨w, hw, rfl⟩ := firstInvalid_of_resolve_error ha
  exact exec_of_firstInvalid (hi ▸ hw)

/-- `set` with a source value `v` ends as the store of `v` does (R95). -/
theorem exec_set_of_resolve_ok (ha : resolve s a = .ok v) :
    exec (.set d a) s = s.commit ((store s d v).map (·.advance 2)) := by
  rw [exec, execSet, ha]
  rfl

/-- `push` cannot fault behind its source (R96). -/
theorem exec_push_of_resolve_ok (ha : resolve s a = .ok v) : exec (.push a) s = .next ((s.push v).advance 1) := by
  simp [exec, execPush, ha]

/-- `pop` of an empty stack never looks at its destination (R97). -/
theorem exec_pop_of_stack_nil (hs : s.stack = []) : exec (.pop d) s = .next (s.raise .stackUnderflow) := by
  simp [exec, execPop, hs]

/-- `pop` with `v` on top ends as the store of `v` does; only then does `v` leave the stack (R97). -/
theorem exec_pop_of_stack_cons (hs : s.stack = v :: rest) :
    exec (.pop d) s = s.commit ((store s d v).map fun t => (t.setStack rest).advance 1) := by
  rw [exec, execPop, hs]
  rfl

end

end Machine

namespace Proofs
open Machine

/-- Settles O39: behind a source value, `set` does what `store` does with it, and `store` what `checkdest` says. -/
theorem setCopiesTheValue : Obligations.SetCopiesTheValue := by
  refine fun s d a => ⟨rfl, fun f ha => exec_of_source_error rfl ha, fun v f ha hd => ?noRegister,
    fun v r ha hd => ?register⟩
  case noRegister => rw [exec_set_of_resolve_ok ha, store_of_checkdest_error hd, Except.map, State.commit_error]
  case register =>
    rw [exec_set_of_resolve_ok ha, store_of_checkdest_ok hd, Except.map, State.commit_ok, State.advance_two,
      State.setReg_pc]

/-- Settles O40: the pushed word is the resolved value, and IP moves past one operand word. -/
theorem pushPutsTheValueOnTop : Obligations.PushPutsTheValueOnTop := by
  refine fun s a => ⟨rfl, fun f ha => exec_of_source_error rfl ha, fun v ha => ?_⟩
  rw [exec_push_of_resolve_ok ha, State.push, State.advance_one, State.setStack_pc]

/-- Settles O41, by the stack first and the destination second: an empty stack answers before `checkdest` is asked. -/
theorem popTakesTheTop : Obligations.PopTakesTheTop := by
  refine fun s d => ⟨rfl, fun hs => exec_pop_of_stack_nil hs, fun v rest f hs hd => ?noRegister,
    fun v rest r hs hd => ?register⟩
  case noRegister => rw [exec_pop_of_stack_cons hs, store_of_checkdest_error hd, Except.map, State.commit_error]
  case register =>
    rw [exec_pop_of_stack_cons hs, store_of_checkdest_ok hd, Except.map, State.commit_ok, State.advance_one,
      State.setStack_pc, State.setReg_pc]

end Proofs
end Sys2Proof
end

section
/-! jmp (44_jumps.md R105): its source is its target, and behind the source nothing can fault. -/

namespace Sys2Proof

namespace Machine

/-- `jmp` goes to whatever word its source resolves to; no bound is checked before the next fetch (R70, R105). -/
theorem exec_jmp_of_resolve_ok {s : State} {a : Operand} {v : Word} (ha : resolve s a = .ok v) :
    exec (.jmp a) s = .next (s.setPc v) := by
  simp [exec, execJmp, ha]

end Machine

namespace Proofs
open Machine

/-- Settles O43, by the two answers of the resolver: the fault of an instruction with one source, or the jump. -/
theorem jmpGoesToTheTarget : Obligations.JmpGoesToTheTarget :=
  fun _ _ => ⟨rfl, fun _ ha => exec_of_source_error rfl ha, fun _ ha => exec_jmp_of_resolve_ok ha⟩

end Proofs
end Sys2Proof
end

section
/-! The instructions `dest, a, b` (43_compare.md, 45_alu.md): their shared rule, from the operation each of them runs. -/

namespace Sys2Proof

namespace Machine

/-- An instruction with three operand words moves IP by four (R76). -/
theorem State.advance_three (s : State) : s.advance 3 = s.setPc (s.pc + 4) := rfl

section
variable {s : State} {op : Word → Word → Except Raise Word} {d a b : Operand} {x y v : Word} {f : Raise} {r : Reg}
  {finish : State → State}

/-- An instruction that ends by storing into a word that is no register is fault entry (R74, R156). -/
theorem commit_store_of_checkdest_error (hd : checkdest d = .error f) :
    s.commit ((store s d v).map finish) = .next (s.raise f) := by
  rw [store_of_checkdest_error hd, Except.map, State.commit_error]

/-- An instruction that ends by storing into a register goes on from the state with that register written (R74). -/
theorem commit_store_of_checkdest_ok (hd : checkdest d = .ok r) :
    s.commit ((store s d v).map finish) = .next (finish (s.setReg r v)) := by
  rw [store_of_checkdest_ok hd, Except.map, State.commit_ok]

/-- Behind a first source that raises, nothing else is looked at (R160). -/
theorem binaryToDest_of_first_error (ha : resolve s a = .error f) : binaryToDest op d a b s = .next (s.raise f) := by
  rw [binaryToDest, ha, except_bind_error, State.commit_error]

/-- A second source raises before the operation and the destination do (R160). -/
theorem binaryToDest_of_second_error (ha : resolve s a = .ok x) (hb : resolve s b = .error f) :
    binaryToDest op d a b s = .next (s.raise f) := by
  rw [binaryToDest, ha, except_bind_ok, hb, except_bind_error, State.commit_error]

/-- The operation raises before the destination is looked at (R160). -/
theorem binaryToDest_of_op_error (ha : resolve s a = .ok x) (hb : resolve s b = .ok y) (hop : op x y = .error f) :
    binaryToDest op d a b s = .next (s.raise f) := by
  rw [binaryToDest, ha, except_bind_ok, hb, except_bind_ok, hop, except_bind_error, State.commit_error]

/-- With a result `v` the instruction ends as the store of `v` does (R75 phases 6 and 7). -/
theorem binaryToDest_of_op_ok (ha : resolve s a = .ok x) (hb : resolve s b = .ok y) (hop : op x y = .ok v) :
    binaryToDest op d a b s = s.commit ((store s d v).map (·.advance 3)) := by
  rw [binaryToDest, ha, except_bind_ok, hb, except_bind_ok, hop]
  rfl

end

/-- An instruction that runs `op` between its sources and its destination follows the rule of that shape, with the fault
and the result that `op` gives on two source values. -/
theorem binaryRule_of_op {code : Word} {mk : Operand → Operand → Operand → Instr} {own : Word → Word → Option Raise}
    {result : Nat → Nat → Nat} {op : Word → Word → Except Raise Word}
    (hencode : ∀ d a b, encode (mk d a b) = [code, d.word, a.word, b.word])
    (hexec : ∀ d a b s, exec (mk d a b) s = binaryToDest op d a b s)
    (hfault : ∀ x y f, own x y = some f → op x y = .error f)
    (hresult : ∀ x y, own x y = none → op x y = .ok (BitVec.ofNat 16 (result x.toNat y.toNat))) :
    Spec.BinaryRule code mk own result := by
  intro s d a b
  rw [hexec]
  refine ⟨hencode d a b, fun f ha => binaryToDest_of_first_error ha, fun x f ha hb => binaryToDest_of_second_error ha hb,
    fun x y f ha hb hown => binaryToDest_of_op_error ha hb (hfault x y f hown),
    fun x y f ha hb hown hd => ?noRegister, fun x y r ha hb hown hd => ?register⟩
  case noRegister =>
    rw [binaryToDest_of_op_ok ha hb (hresult x y hown), commit_store_of_checkdest_error hd]
  case register =>
    rw [binaryToDest_of_op_ok ha hb (hresult x y hown), commit_store_of_checkdest_ok hd, State.advance_three,
      State.setReg_pc]

/-- The rule of an operation that cannot fault: its result on every two source values is all there is to say. -/
theorem binaryRule_of_total_op {code : Word} {mk : Operand → Operand → Operand → Instr} {result : Nat → Nat → Nat}
    {op : Word → Word → Except Raise Word}
    (hencode : ∀ d a b, encode (mk d a b) = [code, d.word, a.word, b.word])
    (hexec : ∀ d a b s, exec (mk d a b) s = binaryToDest op d a b s)
    (hresult : ∀ x y, op x y = .ok (BitVec.ofNat 16 (result x.toNat y.toNat))) :
    Spec.BinaryRule code mk Spec.noOwnFault result :=
  binaryRule_of_op hencode hexec (fun _ _ _ hown => nomatch hown) fun x y _ => hresult x y

end Machine
end Sys2Proof
end

section
/-! add, mult, and, or, not (45_alu.md R110, R111, R113 to R115): what the unit computes for each of them. -/

namespace Sys2Proof

namespace Machine

/-- Reducing modulo 32768 keeps bits 14 to 0 and clears bit 15 (R113 to R116). -/
theorem getLsbD_reduce (n : Nat) {k : Nat} (hk : k < 16) :
    (reduce n).getLsbD k = (decide (k < 15) && n.testBit k) := by
  have hlow : (n % 32768).testBit k = (decide (k < 15) && n.testBit k) := Nat.testBit_mod_two_pow n 15 k
  rw [reduce, BitVec.getLsbD_ofNat, decide_eq_true hk, Bool.true_and, hlow]

/-- The sum is exact and reduced once (R110, R118). -/
theorem aluAdd_eq (x y : Word) : aluAdd x y = .ok (BitVec.ofNat 16 ((x.toNat + y.toNat) % 32768)) := rfl

/-- The product is exact and reduced once (R111, R118). -/
theorem aluMult_eq (x y : Word) : aluMult x y = .ok (BitVec.ofNat 16 ((x.toNat * y.toNat) % 32768)) := rfl

/-- The bits of both words, as numbers (R113). -/
theorem aluAnd_eq (x y : Word) : aluAnd x y = .ok (BitVec.ofNat 16 ((x.toNat &&& y.toNat) % 32768)) := by
  rw [aluAnd, BitVec.toNat_and, reduce]

/-- The bits of either word, as numbers (R114). -/
theorem aluOr_eq (x y : Word) : aluOr x y = .ok (BitVec.ofNat 16 ((x.toNat ||| y.toNat) % 32768)) := by
  rw [aluOr, BitVec.toNat_or, reduce]

/-- The complement of all sixteen bits, reduced, is the complement of the low fifteen (R115). -/
theorem aluNot_eq (x : Word) : aluNot x = BitVec.ofNat 16 (32767 - x.toNat % 32768) := by
  have hx : x.toNat < 65536 := x.isLt
  have hlow : (65535 - x.toNat) % 32768 = 32767 - x.toNat % 32768 := by omega
  rw [aluNot, reduce, hlow]

/-- `not` inverts bits 14 to 0 and clears bit 15 (R115): its number is that of the bitwise complement. -/
theorem getLsbD_aluNot (x : Word) {k : Nat} (hk : k < 16) :
    (aluNot x).getLsbD k = (decide (k < 15) && !x.getLsbD k) := by
  have hcompl : aluNot x = reduce (~~~x).toNat := by rw [BitVec.toNat_not]; rfl
  rw [hcompl, getLsbD_reduce _ hk, BitVec.testBit_toNat, BitVec.getLsbD_not, decide_eq_true hk, Bool.true_and]

/-- `not` with a source value ends as the store of its complement does (R115). -/
theorem exec_not_of_resolve_ok {s : State} {d a : Operand} {x : Word} (ha : resolve s a = .ok x) :
    exec (.not d a) s = s.commit ((store s d (aluNot x)).map (·.advance 2)) := by
  rw [exec, execNot, ha]
  rfl

end Machine

namespace Proofs
open Machine

/-- Settles O45: both follow the rule of the three-operand instructions, `aluAdd` with the sum and `aluMult` with the
product. -/
theorem addAndMultAreModulo32768 : Obligations.AddAndMultAreModulo32768 :=
  ⟨binaryRule_of_total_op (fun _ _ _ => rfl) (fun _ _ _ _ => rfl) aluAdd_eq,
    binaryRule_of_total_op (fun _ _ _ => rfl) (fun _ _ _ _ => rfl) aluMult_eq⟩

/-- Settles O47: both follow the rule of the three-operand instructions, as the number of a bitwise result is the bitwise
result of the numbers. -/
theorem andAndOrAreBitwise : Obligations.AndAndOrAreBitwise :=
  ⟨binaryRule_of_total_op (fun _ _ _ => rfl) (fun _ _ _ _ => rfl) aluAnd_eq,
    binaryRule_of_total_op (fun _ _ _ => rfl) (fun _ _ _ _ => rfl) aluOr_eq⟩

/-- Settles O48: behind a source value `not` does what `store` does with its complement, which is read once as a number
and once bit by bit. -/
theorem notInvertsFifteenBits : Obligations.NotInvertsFifteenBits := by
  refine fun s d a => ⟨rfl, fun f ha => exec_of_source_error rfl ha, fun x f ha hd => ?noRegister,
    fun x r ha hd => ⟨?register, fun k hk => getLsbD_aluNot x hk⟩⟩
  case noRegister => rw [exec_not_of_resolve_ok ha, commit_store_of_checkdest_error hd]
  case register =>
    rw [exec_not_of_resolve_ok ha, commit_store_of_checkdest_ok hd, State.advance_two, State.setReg_pc, aluNot_eq]

end Proofs
end Sys2Proof
end

section
/-! rmem and wmem (46_rmem_wmem.md R120, R121): behind the sources, each ends as its memory access does. -/

namespace Sys2Proof

namespace Machine

section
variable {s : State} {d addr val : Operand} {rest : List Operand} {a v : Word} {f : Raise}

/-- The first source raises before any other operand is looked at (R155, R160). -/
theorem exec_of_first_source_error {i : Instr} (hi : i.sources = addr :: rest) (ha : resolve s addr = .error f) :
    exec i s = .next (s.raise f) := by
  obtain ⟨w, rfl, rfl⟩ := resolve_eq_error.mp ha
  exact exec_of_firstInvalid (by rw [hi, firstInvalid])

/-- Behind a first source with a value, the second source raises before anything else does (R155, R160). -/
theorem exec_of_second_source_error {i : Instr} (hi : i.sources = addr :: val :: rest) (ha : resolve s addr = .ok a)
    (hv : resolve s val = .error f) : exec i s = .next (s.raise f) := by
  obtain ⟨w, rfl, rfl⟩ := resolve_eq_error.mp hv
  exact exec_of_firstInvalid (by rw [hi, firstInvalid_of_resolve_ok ha, firstInvalid])

/-- `rmem` of an address behind the end of memory never looks at its destination (R120). -/
theorem exec_rmem_of_address_out (ha : resolve s addr = .ok a) (hout : 32768 ≤ a.toNat) :
    exec (.rmem d addr) s = .next (s.raise (.invalidAddress a)) := by
  have hread : memRead s.mem a = .error (.invalidAddress a) := memRead_eq_error.mpr ⟨hout, rfl⟩
  rw [exec, execRmem, ha, except_bind_ok, hread, except_bind_error, State.commit_error]

/-- `rmem` of an address in memory ends as the store of the cell does (R120). -/
theorem exec_rmem_of_address_in (ha : resolve s addr = .ok a) (hin : a.toNat < 32768) :
    exec (.rmem d addr) s = s.commit ((store s d (s.mem.read a.toNat)).map (·.advance 2)) := by
  have hread : memRead s.mem a = .ok (s.mem.read a.toNat) := memRead_eq_ok.mpr ⟨hin, rfl⟩
  rw [exec, execRmem, ha, except_bind_ok, hread]
  rfl

/-- `wmem` to an address behind the end of memory faults once both sources have a value (R121). -/
theorem exec_wmem_of_address_out (ha : resolve s addr = .ok a) (hv : resolve s val = .ok v) (hout : 32768 ≤ a.toNat) :
    exec (.wmem addr val) s = .next (s.raise (.invalidAddress a)) := by
  have hwrite : memWrite s.mem a v = .error (.invalidAddress a) := memWrite_eq_error.mpr ⟨hout, rfl⟩
  rw [exec, execWmem, ha, except_bind_ok, hv, except_bind_ok, hwrite, except_bind_error, State.commit_error]

/-- `wmem` to an address in memory cannot fault behind its sources (R121). -/
theorem exec_wmem_of_address_in (ha : resolve s addr = .ok a) (hv : resolve s val = .ok v) (hin : a.toNat < 32768) :
    exec (.wmem addr val) s = .next ((s.setMem (s.mem.write a.toNat v)).advance 2) := by
  have hwrite : memWrite s.mem a v = .ok (s.mem.write a.toNat v) := memWrite_eq_ok.mpr ⟨hin, rfl⟩
  rw [exec, execWmem, ha, except_bind_ok, hv, except_bind_ok, hwrite, except_bind_ok, except_pure, State.commit_ok]

end

end Machine

namespace Proofs
open Machine

/-- Settles O50, by the bound on the address first and the destination second: from 32768 on the read raises; below it
`rmem` does what `store` does with the cell. -/
theorem rmemLoadsTheCell : Obligations.RmemLoadsTheCell := by
  refine fun s d addr => ⟨rfl, fun f ha => exec_of_source_error rfl ha,
    fun a ha hout => exec_rmem_of_address_out ha hout, fun a f ha hin hd => ?noRegister, fun a r ha hin hd => ?register⟩
  case noRegister => rw [exec_rmem_of_address_in ha hin, commit_store_of_checkdest_error hd]
  case register =>
    rw [exec_rmem_of_address_in ha hin, commit_store_of_checkdest_ok hd, State.advance_two, State.setReg_pc]

/-- Settles O51, by the sources first and the bound on the address second: below 32768 the memory is the only field
besides IP that changes, and the laws of a read after a write describe its cells. -/
theorem wmemStoresTheWord : Obligations.WmemStoresTheWord := by
  refine fun s addr val hs => ⟨rfl, fun f ha => exec_of_first_source_error rfl ha,
    fun a f ha hv => exec_of_second_source_error rfl ha hv,
    fun a v ha hv hout => exec_wmem_of_address_out ha hv hout, fun a v ha hv hin => ?stored⟩
  case stored =>
    have hsame : (s.mem.write a.toNat v).read a.toNat = v := Memory.read_write_same hs
    have hother : ∀ b, b ≠ a.toNat → (s.mem.write a.toNat v).read b = s.mem.read b :=
      fun _ hb => Memory.read_write_other v s.mem hb
    refine ⟨_, exec_wmem_of_address_in ha hv hin, ?_⟩
    simpa [State.advance_two, hsame] using hother

end Proofs
end Sys2Proof
end

section
/-! call and ret (47_call_ret.md R125, R126): the two ways each of them can go. -/

namespace Sys2Proof

namespace Machine

/-- `call` pushes the address behind itself, whatever its target is, and goes there; behind its source nothing can fault
(R125). -/
theorem exec_call_of_resolve_ok {s : State} {a : Operand} {v : Word} (ha : resolve s a = .ok v) :
    exec (.call a) s = .next ((s.push (s.pc + 2)).setPc v) := by
  rw [exec, execCall, ha, except_bind_ok, except_pure, State.commit_ok]

/-- `ret` on an empty stack is a clean halt, not a stack underflow (R126). -/
theorem exec_ret_of_stack_nil {s : State} (hs : s.stack = []) : exec .ret s = .next (s.terminate .cleanHalt) := by
  rw [exec, execRet, hs]

/-- `ret` goes to the word it takes off the stack, whole and unchecked (R126). -/
theorem exec_ret_of_stack_cons {s : State} {v : Word} {rest : List Word} (hs : s.stack = v :: rest) :
    exec .ret s = .next ((s.setStack rest).setPc v) := by
  rw [exec, execRet, hs]

end Machine

namespace Proofs
open Machine

/-- Settles O53, by the two answers of the resolver: the fault of an instruction with one source, or the push of the
return address and the jump. -/
theorem callPushesTheReturnAddress : Obligations.CallPushesTheReturnAddress := by
  refine fun s a => ⟨rfl, fun f ha => exec_of_source_error rfl ha, fun v ha => ?_⟩
  rw [exec_call_of_resolve_ok ha, State.push]

/-- Settles O54, by the stack: when it is empty, `ret` is `terminate`, which changes `STATUS.state` alone; otherwise it
is the jump to the top word. -/
theorem retPopsOrEndsTheRun : Obligations.RetPopsOrEndsTheRun := by
  refine ⟨rfl, fun s => ⟨fun hs => ?cleanHalt, fun v rest hs => exec_ret_of_stack_cons hs⟩⟩
  have hstack : (s.terminate .cleanHalt).stack = [] := (s.terminate_stack .cleanHalt).trans hs
  exact ⟨s.terminate .cleanHalt, exec_ret_of_stack_nil hs, s.terminate_status .cleanHalt, s.terminate_pc .cleanHalt,
    s.terminate_regs .cleanHalt, s.terminate_mem .cleanHalt, hstack, s.terminate_inbuf .cleanHalt,
    s.terminate_console .cleanHalt⟩

end Proofs
end Sys2Proof
end

section
/-! out (48_io.md R130): behind its source, it ends as the write to the Console does. -/

namespace Sys2Proof

namespace Machine

section
variable {s : State} {c c' : Console} {a : Operand} {v : Word}

/-- A word the Console writes is added behind the OUT words written before it (R132). -/
theorem outWords_of_write_out (h : c.write (.out v) = some c') : c'.outWords = c.outWords ++ [v] := by
  obtain ⟨htranscript, -, -⟩ := write_eq_some h
  simp [Console.outWords, htranscript]

/-- One transaction of the OUT interface replaces the Console and nothing else (R132). -/
theorem consoleOut_of_write_some (h : s.console.write (.out v) = some c) : consoleOut s v = .ok (s.setConsole c) := by
  rw [consoleOut, h]

/-- A write that the Console reports as failed is the instruction's fault (R132, R141). -/
theorem consoleOut_of_write_none (h : s.console.write (.out v) = none) : consoleOut s v = .error .consoleFailure := by
  rw [consoleOut, h]

/-- `out` of a word the Console writes cannot fault, whatever the word is (R130). -/
theorem exec_out_of_write_some (ha : resolve s a = .ok v) (h : s.console.write (.out v) = some c) :
    exec (.out a) s = .next ((s.setConsole c).advance 1) := by
  rw [exec, execOut, ha, except_bind_ok, consoleOut_of_write_some h, except_bind_ok, except_pure, State.commit_ok]

/-- `out` faults behind its source only when the Console reports a failed write (R130). -/
theorem exec_out_of_write_none (ha : resolve s a = .ok v) (h : s.console.write (.out v) = none) :
    exec (.out a) s = .next (s.raise .consoleFailure) := by
  rw [exec, execOut, ha, except_bind_ok, consoleOut_of_write_none h, except_bind_error, State.commit_error]

end

end Machine

namespace Proofs
open Machine

/-- Settles O55, by the source first and the Console's answer second: a failed write is fault entry, and a write that
succeeds adds the resolved word to the OUT words and moves IP past one operand word. -/
theorem outWritesOneWord : Obligations.OutWritesOneWord := by
  refine fun s a => ⟨rfl, fun f ha => exec_of_source_error rfl ha, fun v ha hw => exec_out_of_write_none ha hw,
    fun v c ha hw => ⟨?written, outWords_of_write_out hw⟩⟩
  case written => rw [exec_out_of_write_some ha hw, State.advance_one, State.setConsole_pc]

end Proofs
end Sys2Proof
end

section
/-! Decode and encode are inverse to each other (30_encoding.md R50 to R54): operand by operand, then instruction by
instruction. -/

namespace Sys2Proof

/-- The operand word of a literal is the literal's number (R54). -/
theorem toNat_literal_word (v : BitVec 15) : (Operand.literal v).word.toNat = v.toNat :=
  BitVec.toNat_setWidth_of_le (by decide)

/-- The classifier gives a well-formed operand back from its word (R54, R55). -/
theorem classify_word {a : Operand} (ha : a.wf = true) : classify a.word = a := by
  cases a with
  | literal v =>
    have hv : v.toNat ≤ 32767 := Nat.le_of_lt_succ v.isLt
    rw [classify_of_literal_range (by rwa [toNat_literal_word]), Operand.word,
      BitVec.setWidth_setWidth_of_le _ (by decide), BitVec.setWidth_eq]
  | register r => exact classify_register_word r
  | invalid w => exact classify_of_invalid_range (of_decide_eq_true ha)

/-- What the classifier gives is well formed (R55). -/
theorem classify_wf (w : Word) : (classify w).wf = true := by
  obtain ⟨hlit, hreg, hinv⟩ := Proofs.classifyByRanges w
  obtain h | ⟨hlo, hhi⟩ | h : w.toNat ≤ 32767 ∨ (32768 ≤ w.toNat ∧ w.toNat ≤ 32775) ∨ 32776 ≤ w.toNat := by omega
  · obtain ⟨v, hv, -⟩ := hlit h
    rw [hv, Operand.wf]
  · obtain ⟨r, hr, -⟩ := hreg hlo hhi
    rw [hr, Operand.wf]
  · rw [hinv h, Operand.wf, decide_eq_true_eq]
    omega

/-- Every operand of an assembled instruction is a classified word (R53), so the instruction is well formed. -/
theorem assemble_wf (o : Opcode) (ws : List Word) : (assemble o ws).wf = true := by
  cases o <;> simp [assemble, Instr.wf, operandAt, classify_wf]

/-- A well-formed instruction is assembled from its own operand words, whatever words follow (R50). -/
theorem assemble_encode_tail {i : Instr} (hi : i.wf = true) (rest : List Word) :
    assemble i.opcode ((encode i).tail ++ rest) = i := by
  cases i <;> simp_all [Instr.wf, Instr.opcode, assemble, encode, operandAt, classify_word]

/-- Decode looks at nothing behind its opcode's operand words, and needs all of them (R50, R71, R72). -/
theorem decode_eq_ok {ws rest : List Word} {i : Instr} (h : decode ws = .ok (i, rest)) :
    ∃ w o ops, ws = w :: ops ∧ decodeOpcode w = some o ∧ o.operandCount ≤ ops.length ∧ i = assemble o ops ∧
      rest = ops.drop o.operandCount := by
  cases ws with
  | nil => cases h
  | cons w ops =>
    cases ho : decodeOpcode w with
    | none =>
      rw [decode_cons_of_none ops ho] at h
      cases h
    | some o =>
      by_cases hlen : o.operandCount ≤ ops.length
      · rw [decode_cons_of_some ho hlen] at h
        cases h
        exact ⟨w, o, ops, rfl, ho, hlen, rfl, rfl⟩
      · simp [decode, ho, Nat.lt_of_not_le hlen] at h

namespace Proofs

/-- Settles O2, by the layout of an instruction: its first word selects its opcode, and it is assembled from the words
behind that one. -/
theorem decodeOfEncode : Obligations.DecodeOfEncode := by
  intro i rest hi
  obtain ⟨hlen, hhead⟩ := encode_layout i
  obtain ⟨w, hw, ho⟩ := Option.bind_eq_some_iff.mp hhead
  have hcons : encode i = w :: (encode i).tail := List.eq_cons_of_mem_head? hw
  have htail : (encode i).tail.length = i.opcode.operandCount := by rw [List.length_tail, hlen, Nat.add_sub_cancel_left]
  rw [hcons, List.cons_append, decode_cons_of_some ho (by simp [htail]), assemble_encode_tail hi, ← htail,
    List.drop_left]

/-- Settles O3, by what a list that decodes consists of: an opcode word, the operand words, which the instruction keeps,
and the rest. -/
theorem encodeOfDecode : Obligations.EncodeOfDecode := by
  intro ws rest i h
  obtain ⟨w, o, ops, rfl, ho, hlen, rfl, rfl⟩ := decode_eq_ok h
  exact ⟨assemble_wf o ops, by rw [encode_assemble ho hlen, List.cons_append, List.take_append_drop]⟩

end Proofs
end Sys2Proof
end

section
/-! What an instruction can do to the state, with one constructor for each way it can end (R75 phases 4 to 7, R78).
The frames and the invariants are read off it, a field at a time. -/

namespace Sys2Proof

namespace Machine

/-- Where a word that an instruction puts into a register or on the stack can come from: it is a reduced result or a
code point below 32768, the value of a source, a cell of memory, or an entry of the stack. -/
def WordOrigin (i : Instr) (s : State) (v : Word) : Prop :=
  v.toNat ≤ 32767 ∨ (∃ a ∈ i.sources, resolve s a = .ok v) ∨ (∃ x, v = s.mem.read x) ∨ v ∈ s.stack

/-- The ways an instruction can end at a state. -/
inductive Effect (s : State) : Instr → State → Prop where
  /-- Fault entry at the state before the instruction (R153). -/
  | faults {i : Instr} (f : Raise) (hin : ∀ d, i ≠ .inp d) : Effect s i (s.raise f)
  /-- `halt` (R90). -/
  | halts : Effect s .halt (s.terminate .halted)
  /-- `ret` on an empty stack (R126, R151). -/
  | haltsClean (hs : s.stack = []) : Effect s .ret (s.terminate .cleanHalt)
  /-- `noop` (R91). -/
  | idles : Effect s .noop (s.advance 0)
  /-- A result stored in the destination register by set, rmem or an instruction of the unit (R74, R76). -/
  | writesRegister {i : Instr} {r : Reg} {v : Word} (hdest : i.destination = some (.register r))
      (hin : ∀ d, i ≠ .inp d) (horigin : WordOrigin i s v)
      (hunit : i.opcode ≠ .set → i.opcode ≠ .rmem → v.toNat ≤ 32767) :
      Effect s i ((s.setReg r v).advance i.opcode.operandCount)
  /-- `push` (R96). -/
  | pushes {a : Operand} {v : Word} (ha : resolve s a = .ok v) : Effect s (.push a) ((s.push v).advance 1)
  /-- `pop` (R97). -/
  | pops {r : Reg} {v : Word} {rest : List Word} (hs : s.stack = v :: rest) :
      Effect s (.pop (.register r)) (((s.setReg r v).setStack rest).advance 1)
  /-- `jmp` (R105). -/
  | jumps {a : Operand} {v : Word} (ha : resolve s a = .ok v) : Effect s (.jmp a) (s.setPc v)
  /-- `jt` (R106). -/
  | jumpsIfTrue {a b : Operand} {c v : Word} (ha : resolve s a = .ok c) (hb : resolve s b = .ok v) :
      Effect s (.jt a b) (s.setPc (if c = 0 then s.pc + 3 else v))
  /-- `jf` (R107). -/
  | jumpsIfFalse {a b : Operand} {c v : Word} (ha : resolve s a = .ok c) (hb : resolve s b = .ok v) :
      Effect s (.jf a b) (s.setPc (if c = 0 then v else s.pc + 3))
  /-- `call` (R125). -/
  | calls {a : Operand} {v : Word} (ha : resolve s a = .ok v) :
      Effect s (.call a) ((s.push (s.pc + 2)).setPc v)
  /-- `ret` to the word on top of the stack (R126). -/
  | returns {v : Word} {rest : List Word} (hs : s.stack = v :: rest) : Effect s .ret ((s.setStack rest).setPc v)
  /-- `wmem` (R121). -/
  | stores {x y : Operand} {a v : Word} (hx : resolve s x = .ok a) (hy : resolve s y = .ok v)
      (ha : a.toNat < 32768) : Effect s (.wmem x y) ((s.setMem (s.mem.write a.toNat v)).advance 2)
  /-- `out` (R130). -/
  | outputs {a : Operand} {v : Word} {c : Console} (ha : resolve s a = .ok v)
      (hc : s.console.write (.out v) = some c) : Effect s (.out a) ((s.setConsole c).advance 1)
  /-- `in` with no line to read (R136). -/
  | waits {d : Operand} {k : Console} (hk : consoleIn s.inbuf s.console = .waiting k) :
      Effect s (.inp d) (s.setConsole k)
  /-- `in` whose Console fails (R141). -/
  | inFails {d : Operand} {k : Console} (hk : consoleIn s.inbuf s.console = .failed k) :
      Effect s (.inp d) ((s.setConsole k).raise .consoleFailure)
  /-- `in` that faults behind its code point (R78, R131). -/
  | inFaults {d : Operand} {c : Nat} {rest : List Nat} {k : Console} (f : Raise)
      (hk : consoleIn s.inbuf s.console = .char c rest k) :
      Effect s (.inp d) (((s.setInbuf rest).setConsole k).raise f)
  /-- `in` that completes (R131). -/
  | delivers {r : Reg} {c : Nat} {rest : List Nat} {k : Console} (hk : consoleIn s.inbuf s.console = .char c rest k)
      (hc : c < 32768) :
      Effect s (.inp (.register r)) ((((s.setInbuf rest).setConsole k).setReg r (BitVec.ofNat 16 c)).advance 1)

section
variable {i : Instr} {s t : State}

/-- What set, rmem and the instructions of the unit put into their destination (R95, R120, R116). -/
theorem wordOrigin_of_result {d : Operand} {v : Word} (hdest : i.destination = some d)
    (hset : ∀ a, i = .set d a → resolve s a = .ok v) (hrmem : ∀ a, i = .rmem d a → ∃ x, v = s.mem.read x)
    (hunit : i.opcode ≠ .set → i.opcode ≠ .rmem → v.toNat ≤ 32767) : WordOrigin i s v := by
  cases i with
  | set d' a =>
    obtain rfl := Option.some.inj hdest
    exact .inr (.inl ⟨a, List.mem_singleton_self a, hset a rfl⟩)
  | rmem d' a =>
    obtain rfl := Option.some.inj hdest
    exact .inr (.inr (.inl (hrmem a rfl)))
  | _ => exact .inl (hunit nofun nofun)

/-- The next state of an instruction is one that its effects allow. -/
theorem exec_effect (h : exec i s = .next t) : Effect s i t := by
  by_cases hin : ∃ d, i = .inp d
  · obtain ⟨d, rfl⟩ := hin
    obtain ⟨k, -, hk, rfl⟩ | ⟨k, -, hk, rfl⟩ | ⟨c, rest, k, hk, ⟨f, -, rfl⟩ | ⟨r, hc, rfl, rfl⟩⟩ := execIn_cases h
    · exact .waits hk
    · exact .inFails hk
    · exact .inFaults f hk
    · exact .delivers hk hc
  have hin' : ∀ d, i ≠ .inp d := fun d hd => hin ⟨d, hd⟩
  rcases exec_cases i s t h with ⟨f, rfl⟩ | ⟨rfl, rfl⟩ | ⟨rfl, hs, rfl⟩ |
    ⟨_, r, v, n, hdest, rfl, -, -, rfl, rfl, hset, hrmem, hunit⟩ | ⟨v, n, ⟨a, rfl, ha⟩, rfl, rfl⟩ |
    ⟨r, v, rest, rfl, hs, rfl⟩ | ⟨a, v, rfl, ha, rfl⟩ | ⟨a, v, rfl, ha, rfl⟩ | ⟨v, rest, rfl, hs, rfl⟩ |
    ⟨a, b, c, v, rfl, ha, hb, rfl⟩ | ⟨a, b, c, v, rfl, ha, hb, rfl⟩ | ⟨x, y, a, v, rfl, hx, hy, ha, rfl⟩ |
    ⟨a, v, c, rfl, ha, hc, rfl⟩ | ⟨rfl, rfl⟩ | hd
  · exact .faults f hin'
  · exact .halts
  · exact .haltsClean hs
  · exact .writesRegister hdest hin' (wordOrigin_of_result hdest hset hrmem hunit) hunit
  · exact .pushes ha
  · exact .pops hs
  · exact .jumps ha
  · exact .calls ha
  · exact .returns hs
  · exact .jumpsIfTrue ha hb
  · exact .jumpsIfFalse ha hb
  · exact .stores hx hy ha
  · exact .outputs ha hc
  · exact .idles
  · exact absurd hd hin

/-! ### The fields, one by one -/

/-- Memory is only ever written by `wmem`, in one cell below 32768 (R30, R121). -/
theorem exec_mem (h : exec i s = .next t) :
    t.mem = s.mem ∨ ∃ x y a v, i = .wmem x y ∧ resolve s x = .ok a ∧ resolve s y = .ok v ∧ a.toNat < 32768 ∧
      t.mem = s.mem.write a.toNat v := by
  cases exec_effect h with
  | stores hx hy ha => exact .inr ⟨_, _, _, _, rfl, hx, hy, ha, rfl⟩
  | _ => exact .inl rfl

/-- Only the destination register is ever written (R11). -/
theorem exec_regs (h : exec i s = .next t) :
    t.regs = s.regs ∨ ∃ r v, i.destination = some (.register r) ∧ WordOrigin i s v ∧ t.regs = s.regs.set r v := by
  cases exec_effect h with
  | writesRegister hdest _ horigin _ => exact .inr ⟨_, _, hdest, horigin, rfl⟩
  | pops hs => exact .inr ⟨_, _, rfl, .inr (.inr (.inr (hs ▸ List.mem_cons_self ..))), rfl⟩
  | @delivers r c rest k hk hc =>
    have hle : (BitVec.ofNat 16 c).toNat ≤ 32767 := by
      rw [BitVec.toNat_ofNat, Nat.mod_eq_of_lt (by omega)]
      omega
    exact .inr ⟨_, _, rfl, .inl hle, rfl⟩
  | _ => exact .inl rfl

/-- The stack keeps its entries, gains one at its top or loses its top (R17). -/
theorem exec_stack (h : exec i s = .next t) :
    t.stack = s.stack ∨
    (∃ v, i.opcode ∈ [Opcode.push, .call] ∧ (v = s.pc + 2 ∨ WordOrigin i s v) ∧ t.stack = v :: s.stack) ∨
    (∃ v, i.opcode ∈ [Opcode.pop, .ret] ∧ s.stack = v :: t.stack) := by
  cases exec_effect h with
  | @pushes a v ha =>
    exact .inr (.inl ⟨v, by simp [Instr.opcode], .inr (.inr (.inl ⟨a, List.mem_singleton_self a, ha⟩)), rfl⟩)
  | calls => exact .inr (.inl ⟨_, by simp [Instr.opcode], .inl rfl, rfl⟩)
  | pops hs => exact .inr (.inr ⟨_, by simp [Instr.opcode], hs⟩)
  | returns hs => exact .inr (.inr ⟨_, by simp [Instr.opcode], hs⟩)
  | _ => exact .inl rfl

/-- `STATUS` records a fault, or a termination, or stays (R16, R18). -/
theorem exec_status (h : exec i s = .next t) :
    t.status = s.status ∨ (∃ f : Raise, t.Raised f) ∨ (i = .halt ∧ t = s.terminate .halted) ∨
    (i = .ret ∧ s.stack = [] ∧ t = s.terminate .cleanHalt) := by
  cases exec_effect h with
  | faults f | inFaults f => exact .inr (.inl ⟨f, rfl⟩)
  | inFails => exact .inr (.inl ⟨_, rfl⟩)
  | halts => exact .inr (.inr (.inl ⟨rfl, rfl⟩))
  | haltsClean hs => exact .inr (.inr (.inr ⟨rfl, hs, rfl⟩))
  | _ => exact .inl rfl

/-- A faulting instruction commits nothing, but for what an `in` has taken from the Console (R78, R153). -/
theorem exec_fault (hrun : s.isRunning = true) (h : exec i s = .next t) (hf : t.status.state = .fault) :
    ∃ f : Raise, t.Raised f ∧ s.SameCore t ∧ ((∀ d, i ≠ .inp d) → t = s.raise f) := by
  rw [State.isRunning_iff] at hrun
  cases exec_effect h with
  | faults f => exact ⟨f, rfl, ⟨rfl, rfl, rfl, rfl⟩, fun _ => rfl⟩
  | inFails => exact ⟨_, rfl, ⟨rfl, rfl, rfl, rfl⟩, fun hin => absurd rfl (hin _)⟩
  | inFaults f => exact ⟨f, rfl, ⟨rfl, rfl, rfl, rfl⟩, fun hin => absurd rfl (hin _)⟩
  | _ => simp [hrun] at hf

end

end Machine
end Sys2Proof
end

section
/-! STATUS over one step and over a run: termination (60_exceptions.md R150, R151) and fault entry (R153). -/

namespace Sys2Proof

namespace Machine

section
variable {s t : State}

/-- A step or a meaning answers one next state. -/
theorem eq_of_next {r : Result} (hs : r = .next s) (ht : r = .next t) : s = t :=
  Host.Outcome.next.inj (hs.symm.trans ht)

theorem State.Raised.state {f : Raise} (h : t.Raised f) : t.status.state = .fault := congrArg Status.state h

theorem step_of_halt (hrun : s.isRunning = true) (hf : fetchInstr s = .ok .halt) :
    step s = .next (s.terminate .halted) := by
  rw [step_of_fetchInstr_ok hrun hf, exec_halt]

theorem step_of_ret_of_stack_nil (hrun : s.isRunning = true) (hf : fetchInstr s = .ok .ret) (hs : s.stack = []) :
    step s = .next (s.terminate .cleanHalt) := by
  rw [step_of_fetchInstr_ok hrun hf, exec_ret_of_stack_nil hs]

/-- What a step makes of `STATUS` (R150, R151, R153). -/
theorem step_status (h : step s = .next t) :
    t.status = s.status ∨ (∃ f : Raise, t.Raised f) ∨ (fetchInstr s = .ok .halt ∧ t = s.terminate .halted) ∨
    (fetchInstr s = .ok .ret ∧ s.stack = [] ∧ t = s.terminate .cleanHalt) := by
  obtain ⟨-, hidle⟩ | ⟨-, f, -, hraise⟩ | ⟨-, i, hfetch, hexec⟩ := step_cases s
  · obtain rfl := eq_of_next hidle h
    exact .inl rfl
  · obtain rfl := eq_of_next hraise h
    exact .inr (.inl ⟨f, rfl⟩)
  · obtain hsame | hfault | ⟨rfl, ht⟩ | ⟨rfl, hs, ht⟩ := exec_status (hexec.symm.trans h)
    · exact .inl hsame
    · exact .inr (.inl hfault)
    · exact .inr (.inr (.inl ⟨hfetch, ht⟩))
    · exact .inr (.inr (.inr ⟨hfetch, hs, ht⟩))

/-- A machine that a step leaves as it is stays so, however long it is run. -/
theorem run_of_step_self (h : step s = .next s) (n : Nat) : Sys2Proof.core.run n s = .next s := by
  induction n with
  | zero => rfl
  | succ n ih =>
    have hcore : Sys2Proof.core.step s = .next s := h
    simpa only [Host.Core.run, hcore] using ih

theorem Raise.code_range (f : Raise) : 1 ≤ f.code.toNat ∧ f.code.toNat ≤ 8 := by
  cases f <;> simp [Raise.code]

/-- A recorded fault is what R18 and R152 say of `STATUS`. -/
theorem State.Raised.consistent {f : Raise} (h : t.Raised f) : t.status.Consistent := by
  rw [State.Raised] at h
  exact ⟨fun hne => absurd (congrArg Status.state h) hne, fun _ => by rw [h]; exact f.code_range⟩

/-- A machine that ends without a fault keeps the cause and the info it ran with, which are 0 (R18, R151). -/
theorem terminate_consistent {st : RunState} (hrun : s.isRunning = true) (hs : s.status.Consistent)
    (hst : st ≠ .fault) : (s.terminate st).status.Consistent := by
  have hzero : s.status.cause = 0 ∧ s.status.info = 0 := hs.1 (by simp [(State.isRunning_iff s).mp hrun])
  exact ⟨fun _ => hzero, fun h => absurd h hst⟩

end

end Machine

namespace Proofs
open Machine

/-- Settles O17: of the four things a step can make of `STATUS`, a termination is the only one that ends in success, and
the two instructions that terminate do so whenever they run. -/
theorem successOnlyByHaltOrRet : Obligations.SuccessOnlyByHaltOrRet := by
  intro s t hrun h
  have hstate : s.status.state = .running := (State.isRunning_iff s).mp hrun
  have hhalt : fetchInstr s = .ok .halt → t = s.terminate .halted := fun hf => eq_of_next h (step_of_halt hrun hf)
  have hret : fetchInstr s = .ok .ret ∧ s.stack = [] → t = s.terminate .cleanHalt := fun ⟨hf, hs⟩ =>
    eq_of_next h (step_of_ret_of_stack_nil hrun hf hs)
  refine ⟨⟨fun hend => ?onlyHalt, fun hf => by rw [hhalt hf]; rfl⟩,
    ⟨fun hend => ?onlyRet, fun hf => by rw [hret hf]; rfl⟩, fun hsuccess => ?_⟩
  case onlyHalt =>
    obtain hsame | ⟨f, hf⟩ | ⟨hfetch, -⟩ | ⟨-, -, rfl⟩ := step_status h
    · simp [hsame, hstate] at hend
    · simp [hf.state] at hend
    · exact hfetch
    · simp at hend
  case onlyRet =>
    obtain hsame | ⟨f, hf⟩ | ⟨-, rfl⟩ | ⟨hfetch, hs, -⟩ := step_status h
    · simp [hsame, hstate] at hend
    · simp [hf.state] at hend
    · simp at hend
    · exact ⟨hfetch, hs⟩
  obtain hsame | ⟨f, hf⟩ | ⟨-, rfl⟩ | ⟨-, -, rfl⟩ := step_status h
  · simp [Status.success, hsame, hstate] at hsuccess
  · simp [Status.success, hf.state] at hsuccess
  all_goals exact ⟨rfl, fun hs => (terminate_consistent hrun hs (by decide)).1 (by simp)⟩

/-- Settles O15: a step that is no fault and no termination leaves `STATUS` RUNNING; a machine that has terminated
steps to itself, and so does a run of any length. -/
theorem terminatedMachineStaysPut : Obligations.TerminatedMachineStaysPut := by
  refine ⟨rfl, fun s t hrun h => ⟨fun hend => ?stops, ?stopped⟩,
    fun s n hs => run_of_step_self (step_of_not_running hs) n⟩
  case stops =>
    obtain hsame | ⟨f, hf⟩ | ⟨hfetch, -⟩ | ⟨hfetch, hs, -⟩ := step_status h
    · have hstill : t.isRunning = s.isRunning := by rw [State.isRunning, hsame, State.isRunning]
      simp [hstill, hrun] at hend
    · exact .inr (.inr hf.state)
    · exact .inl hfetch
    · exact .inr (.inl ⟨hfetch, hs⟩)
  case stopped =>
    rintro (hfetch | ⟨hfetch, hs⟩ | hfault)
    · obtain rfl := eq_of_next (step_of_halt hrun hfetch) h
      simp
    · obtain rfl := eq_of_next (step_of_ret_of_stack_nil hrun hfetch hs) h
      simp
    · simp [State.isRunning, hfault]

/-- Settles O18: a fault of the fetch is fault entry at the state of the step, and one of the instruction commits
nothing. -/
theorem faultCommitsNothing : Obligations.FaultCommitsNothing := by
  intro s t hrun h hfault
  cases hfetch : fetchInstr s with
  | error f =>
    obtain rfl := eq_of_next (step_of_fetchInstr_error hrun hfetch) h
    exact ⟨f, rfl, ⟨rfl, rfl, rfl, rfl⟩, fun _ => rfl⟩
  | ok i =>
    rw [step_of_fetchInstr_ok hrun hfetch] at h
    obtain ⟨f, hf, hcore, heq⟩ := exec_fault hrun h hfault
    exact ⟨f, hf, hcore, fun hin => heq fun d hd => hin d (by rw [hd])⟩

/-- Settles O23, by the four things a step can make of `STATUS`; a machine that terminates ran with cause and info 0. -/
theorem stepKeepsStatusConsistent : Obligations.StepKeepsStatusConsistent := by
  intro s t hs h
  cases hrun : s.isRunning with
  | false =>
    obtain rfl := eq_of_next (step_of_not_running hrun) h
    exact hs
  | true =>
    obtain hsame | ⟨f, hf⟩ | ⟨-, rfl⟩ | ⟨-, -, rfl⟩ := step_status h
    · rwa [hsame]
    · exact hf.consistent
    all_goals exact terminate_consistent hrun hs (by decide)

/-- Settles O36: a termination changes the state of `STATUS` alone. -/
theorem statusFrame : Obligations.StatusFrame := by
  intro i s t h
  obtain hsame | hfault | ⟨rfl, rfl⟩ | ⟨rfl, hs, rfl⟩ := exec_status h
  · exact .inl hsame
  · exact .inr (.inl hfault)
  · exact .inr (.inr (.inl ⟨rfl, rfl⟩))
  · exact .inr (.inr (.inr ⟨rfl, hs, rfl⟩))

end Proofs
end Sys2Proof
end

section
/-! jt and jf (44_jumps.md R106, R107) and the compare and remainder instructions (43_compare.md, 45_alu.md R112). -/

namespace Sys2Proof

namespace Machine

section
variable {s : State} {a b : Operand} {c v : Word}

theorem nonZero_zero : nonZero 0 = false := rfl

theorem nonZero_of_ne_zero (hc : c ≠ 0) : nonZero c = true := decide_eq_true hc

/-- `jt` with both operands resolved (R106). -/
theorem exec_jt_of_resolve_ok (ha : resolve s a = .ok c) (hb : resolve s b = .ok v) :
    exec (.jt a b) s = .next (s.setPc (if c = 0 then s.pc + 3 else v)) := by
  rw [exec, execJt, ha, except_bind_ok, hb, except_bind_ok, except_pure, State.commit_ok]
  by_cases hc : c = 0
  · rw [hc, nonZero_zero, if_pos rfl]
    rfl
  · rw [nonZero_of_ne_zero hc, if_neg hc]
    rfl

/-- `jf` with both operands resolved (R107). -/
theorem exec_jf_of_resolve_ok (ha : resolve s a = .ok c) (hb : resolve s b = .ok v) :
    exec (.jf a b) s = .next (s.setPc (if c = 0 then v else s.pc + 3)) := by
  rw [exec, execJf, ha, except_bind_ok, hb, except_bind_ok, except_pure, State.commit_ok]
  by_cases hc : c = 0
  · rw [hc, nonZero_zero, if_pos rfl]
    rfl
  · rw [nonZero_of_ne_zero hc, if_neg hc]
    rfl

end

/-- The word of a truth value (R100, R101). -/
theorem truthWord_decide (p : Prop) [Decidable p] : truthWord (decide p) = BitVec.ofNat 16 (if p then 1 else 0) := by
  by_cases h : p <;> simp [truthWord, h]

/-- Equality of all sixteen bits (R100). -/
theorem aluEq_eq (x y : Word) : aluEq x y = .ok (BitVec.ofNat 16 (if x.toNat = y.toNat then 1 else 0)) := by
  rw [aluEq, truthWord_decide]

/-- Order of the sixteen-bit numbers (R101). -/
theorem aluGt_eq (x y : Word) : aluGt x y = .ok (BitVec.ofNat 16 (if x.toNat > y.toNat then 1 else 0)) := by
  rw [aluGt, truthWord_decide]

theorem aluMod_zero (x : Word) : aluMod x 0 = .error .divideByZero := rfl

/-- The remainder of the whole words, reduced (R112). -/
theorem aluMod_eq (x : Word) {y : Word} (hy : y ≠ 0) :
    aluMod x y = .ok (BitVec.ofNat 16 ((x.toNat % y.toNat) % 32768)) := by
  have hne : y.toNat ≠ 0 := fun h => hy (BitVec.eq_of_toNat_eq h)
  rw [aluMod, if_neg hne, reduce]

end Machine

namespace Proofs
open Machine

/-- Settles O44, by the zero test of the first operand, which both instructions make once both operands have a value. -/
theorem jtAndJfAreComplements : Obligations.JtAndJfAreComplements := by
  refine fun s a b => ⟨rfl, rfl, fun f ha => ?first, fun c f ha hb => ?second, fun c v ha hb hc => ?nonzero,
    fun c v ha hb hc => ?zero⟩
  case first => exact ⟨exec_of_first_source_error rfl ha, exec_of_first_source_error rfl ha⟩
  case second => exact ⟨exec_of_second_source_error rfl ha hb, exec_of_second_source_error rfl ha hb⟩
  case nonzero =>
    rw [exec_jt_of_resolve_ok ha hb, exec_jf_of_resolve_ok ha hb, if_neg hc, if_neg hc]
    exact ⟨rfl, rfl⟩
  case zero =>
    rw [exec_jt_of_resolve_ok ha hb, exec_jf_of_resolve_ok ha hb, if_pos hc, if_pos hc]
    exact ⟨rfl, rfl⟩

/-- Settles O42: both follow the rule of the three-operand instructions, with the truth word of their comparison. -/
theorem eqAndGtCompareWords : Obligations.EqAndGtCompareWords :=
  ⟨binaryRule_of_total_op (fun _ _ _ => rfl) (fun _ _ _ _ => rfl) aluEq_eq,
    binaryRule_of_total_op (fun _ _ _ => rfl) (fun _ _ _ _ => rfl) aluGt_eq⟩

/-- Settles O46: `mod` follows the rule of the three-operand instructions, with a fault of its own for the divisor 0. -/
theorem modIsTheRemainder : Obligations.ModIsTheRemainder := by
  refine binaryRule_of_op (op := aluMod) (fun _ _ _ => rfl) (fun _ _ _ _ => rfl) (fun x y f hown => ?fault)
    fun x y hown => ?result
  case fault =>
    obtain ⟨rfl, rfl⟩ : y = 0 ∧ .divideByZero = f := by simpa [Spec.zeroDivisor] using hown
    exact aluMod_zero x
  case result =>
    have hy : y ≠ 0 := by simpa [Spec.zeroDivisor] using hown
    exact aluMod_eq x hy

end Proofs
end Sys2Proof
end

section
/-! in (48_io.md R131): it ends as `ConsoleIn()` does, and behind a code point as the store of it does. -/

namespace Sys2Proof

namespace Machine

section
variable {s : State} {d : Operand} {c : Nat} {rest : List Nat} {k : Console}

/-- With no line to read, `in` keeps what the Console has become and waits (R136). -/
theorem exec_in_of_waiting (hk : consoleIn s.inbuf s.console = .waiting k) :
    exec (.inp d) s = .next (s.setConsole k) := by
  rw [exec, execIn, hk]

/-- A Console that fails is the fault of `in` (R141, R161). -/
theorem exec_in_of_failed (hk : consoleIn s.inbuf s.console = .failed k) :
    exec (.inp d) s = .next ((s.setConsole k).raise .consoleFailure) := by
  rw [exec, execIn, hk]

/-- A code point once taken stays taken (R78, R131). -/
theorem exec_in_of_char (hk : consoleIn s.inbuf s.console = .char c rest k) :
    exec (.inp d) s =
      ((s.setInbuf rest).setConsole k).commit (deliver d c ((s.setInbuf rest).setConsole k)) := by
  rw [exec, execIn, hk]

/-- The range of a code point is checked before the destination (R131, R159). -/
theorem deliver_of_out_of_range (hc : 32768 ≤ c) : deliver d c s = .error (.inputOutOfRange c) := by
  simp [deliver, hc]

/-- A code point below 32768 is stored whole (R131). -/
theorem deliver_of_in_range (hc : c < 32768) :
    deliver d c s = (store s d (BitVec.ofNat 16 c)).map (·.advance 1) := by
  rw [deliver, if_neg (by omega)]
  rfl

end

end Machine

namespace Proofs
open Machine

/-- Settles O56, by what `ConsoleIn()` comes to, and behind a code point by its range first and the destination
second. -/
theorem inReadsOneCharacter : Obligations.InReadsOneCharacter := by
  refine fun s d => ⟨rfl, fun c rest hs => by rw [hs, consoleIn], fun k hk => exec_in_of_waiting hk,
    fun k hk => exec_in_of_failed hk, fun c rest k hk hc => ?outOfRange, fun c rest k f hk hc hd => ?noRegister,
    fun c rest k r hk hc hd => ?register⟩
  case outOfRange => rw [exec_in_of_char hk, deliver_of_out_of_range hc, State.commit_error]
  case noRegister => rw [exec_in_of_char hk, deliver_of_in_range hc, commit_store_of_checkdest_error hd]
  case register =>
    rw [exec_in_of_char hk, deliver_of_in_range hc, commit_store_of_checkdest_ok hd, State.advance_one,
      State.setReg_pc, State.setConsole_pc, State.setInbuf_pc]

end Proofs
end Sys2Proof
end

section
/-! The frames of the 22 instructions: registers, memory, stack, Console and IP (R11, R17, R30, R76). -/

namespace Sys2Proof

namespace Machine

/-- The Console that `ConsoleIn()` leaves. -/
def InputResult.console : InputResult → Console
  | .char _ _ k => k
  | .waiting k => k
  | .failed k => k

/-- `ConsoleIn()` writes prompts only, which are no OUT words (R132, R142). -/
theorem consoleIn_outWords {b : List Nat} {c : Console} {r : InputResult} (h : consoleIn b c = r) :
    r.console.outWords = c.outWords := by
  subst h
  obtain ⟨-, k, hk, hout⟩ | ⟨-, k, hk, hout⟩ | ⟨x, xs, k, hk, hout, -⟩ := consoleIn_cases b c <;> rw [hk] <;> exact hout

/-- A line that ends with a newline and is not blank queues its characters but for the carriage returns (R135, R138). -/
theorem queuedLine_of_newline {cs : List Nat} (hblank : isBlankLine cs = false) (hend : cs.getLast? = some 10) :
    queuedLine cs = cs.filter fun c => decide (c ≠ 13) := by
  rw [queuedLine, hblank, if_neg Bool.false_ne_true, if_pos hend, stripReturns]

/-- `ConsoleIn()` neither delivers nor leaves a carriage return when none is queued (R138). -/
theorem consoleIn_no_return {b rest : List Nat} {c k : Console} {x : Nat} (h : consoleIn b c = .char x rest k)
    (hb : 13 ∉ b) : 13 ∉ x :: rest := by
  obtain ⟨-, k', hk, -⟩ | ⟨-, k', hk, -⟩ | ⟨y, ys, k', hk, -, hqueue⟩ := consoleIn_cases b c
  · cases hk.symm.trans h
  · cases hk.symm.trans h
  · cases hk.symm.trans h
    obtain rfl | ⟨-, cs, hcs⟩ := hqueue
    · exact hb
    · exact hcs ▸ queuedLine_no_return cs

/-- An instruction that ends in a commit has a next state (R153). -/
theorem commit_next (s : State) (r : Except Raise State) : ∃ t, s.commit r = .next t := by
  cases r with
  | ok t => exact ⟨t, rfl⟩
  | error f => exact ⟨s.raise f, rfl⟩

/-- Every instruction has a next state at every state (R188). -/
theorem exec_next (i : Instr) (s : State) : ∃ t, exec i s = .next t := by
  cases i with
  | halt | noop => exact ⟨_, rfl⟩
  | ret =>
    cases hs : s.stack with
    | nil => exact ⟨_, exec_ret_of_stack_nil hs⟩
    | cons v rest => exact ⟨_, exec_ret_of_stack_cons hs⟩
  | inp d =>
    cases hk : consoleIn s.inbuf s.console with
    | char c rest k => exact exec_in_of_char hk ▸ commit_next ..
    | waiting k => exact ⟨_, exec_in_of_waiting hk⟩
    | failed k => exact ⟨_, exec_in_of_failed hk⟩
  | _ => exact commit_next s _

theorem eq_inp_of_opcode {i : Instr} (h : i.opcode = .inp) : ∃ d, i = .inp d := by
  cases i with
  | inp d => exact ⟨d, rfl⟩
  | _ => cases h

theorem word_ne_add_two (w : Word) : w ≠ w + 2 := by bv_omega

end Machine

namespace Proofs
open Machine

/-- Settles O16: an idle step, fault entry and every instruction have a next state. -/
theorem everyStateSteps : Obligations.EveryStateSteps := by
  intro s
  obtain ⟨-, h⟩ | ⟨-, f, -, h⟩ | ⟨-, i, -, h⟩ := step_cases s
  · exact ⟨s, h⟩
  · exact ⟨s.raise f, h⟩
  · exact h ▸ exec_next i s

/-- Settles O32: the one register an instruction writes is its destination. -/
theorem registerFrame : Obligations.RegisterFrame := by
  intro i s t r h hr
  obtain hsame | ⟨q, v, hdest, -, hset⟩ := exec_regs h
  · rw [hsame]
  · have hne : r ≠ q := fun hrq => hr (by rw [hdest, hrq])
    rw [hset, RegFile.get_set_other _ _ hne]

/-- Settles O33: the one cell an instruction writes is that of a `wmem` whose address resolves to it. -/
theorem memoryFrame : Obligations.MemoryFrame := by
  intro i s t h
  obtain hsame | ⟨x, y, a, v, rfl, hx, -, -, hwrite⟩ := exec_mem h
  · exact ⟨fun _ _ => by rw [hsame], fun _ _ _ _ _ _ _ => by rw [hsame], fun _ _ _ _ _ _ => by rw [hsame]⟩
  · refine ⟨fun hi => absurd rfl (hi x y), ?_, ?_⟩
    · rintro x' y' a' ⟨⟩ hx' b hb
      obtain rfl : a = a' := Except.ok.inj (hx.symm.trans hx')
      rw [hwrite, Memory.read_write_other _ _ hb]
    · rintro x' y' f ⟨⟩ hx' b
      cases hx.symm.trans hx'

/-- Settles O34, by the three things that can happen at the top of the stack, none of them at two kinds of
instructions. -/
theorem stackFrame : Obligations.StackFrame := by
  intro i s t h
  have hsub : [Opcode.push, .call] ⊆ [Opcode.push, .pop, .call, .ret] ∧
      [Opcode.pop, .ret] ⊆ [Opcode.push, .pop, .call, .ret] := by decide
  have hdisj : [Opcode.push, .call].Disjoint [Opcode.pop, .ret] := by simp
  obtain hsame | ⟨v, hop, -, hpush⟩ | ⟨v, hop, hpop⟩ := exec_stack h
  · exact ⟨fun _ => hsame, fun _ => .inl hsame, fun _ => .inl hsame⟩
  · exact ⟨fun hnone => absurd (hsub.1 hop) hnone, fun _ => .inr ⟨v, hpush⟩, fun hop' => (hdisj hop hop').elim⟩
  · exact ⟨fun hnone => absurd (hsub.2 hop) hnone, fun hop' => (hdisj hop' hop).elim, fun _ => .inr ⟨v, hpop.symm⟩⟩

/-- Settles O35: the effects of the instructions other than `in` and `out` do not mention the Console; what `in` writes
to it are prompts, and what `out` writes is its word. -/
theorem consoleFrame : Obligations.ConsoleFrame := by
  intro i s t h
  refine ⟨fun hin => ?inbuf, fun hin hout => ?console, ?inWords, ?outWords⟩
  case inbuf =>
    cases exec_effect h with
    | waits | inFails | inFaults | delivers => exact absurd rfl (hin _)
    | _ => rfl
  case console =>
    cases exec_effect h with
    | waits | inFails | inFaults | delivers => exact absurd rfl (hin _)
    | outputs => exact absurd rfl (hout _)
    | _ => rfl
  case inWords =>
    rintro d rfl
    cases exec_effect h with
    | faults | writesRegister => rfl
    | waits hk | inFails hk | inFaults _ hk | delivers hk => exact consoleIn_outWords hk
  case outWords =>
    rintro a rfl
    cases exec_effect h with
    | faults | writesRegister => exact ⟨rfl, rfl, .inl rfl⟩
    | outputs ha hc =>
      obtain ⟨-, hanswers, hawaiting⟩ := write_eq_some hc
      exact ⟨hanswers, hawaiting, .inr ⟨_, ha, outWords_of_write_out hc⟩⟩

/-- Settles O37: an instruction that runs on and is no jump has moved IP past its words, a jump goes where its equation
says, and what ends a run leaves IP alone. -/
theorem nextInstructionPointer : Obligations.NextInstructionPointer := by
  intro i s t hrun h
  have hstate : s.status.state = .running := (State.isRunning_iff s).mp hrun
  refine ⟨fun ht hjump hin => ?advances, fun ht hin => ?input, ?target, ?jt, ?jf, ?returns, fun hend => ?stays⟩
  case advances =>
    rw [State.isRunning_iff] at ht
    cases exec_effect h with
    | faults | halts | haltsClean | inFails | inFaults => cases ht
    | jumps | jumpsIfTrue | jumpsIfFalse | calls | returns => simp [Instr.opcode] at hjump
    | waits | delivers => exact absurd rfl hin
    | _ => rfl
  case input =>
    rw [State.isRunning_iff] at ht
    obtain ⟨d, rfl⟩ := eq_inp_of_opcode hin
    cases exec_effect h with
    | waits hk => exact .inr ⟨rfl, _, hk⟩
    | delivers => exact .inl rfl
    | writesRegister _ hno => exact absurd rfl (hno d)
    | faults | inFails | inFaults => cases ht
  case target =>
    rintro a v (rfl | rfl) ha
    · obtain rfl := eq_of_next (exec_jmp_of_resolve_ok ha) h
      rfl
    · obtain rfl := eq_of_next (exec_call_of_resolve_ok ha) h
      rfl
  case jt =>
    rintro a b c v rfl ha hb
    obtain rfl := eq_of_next (exec_jt_of_resolve_ok ha hb) h
    rfl
  case jf =>
    rintro a b c v rfl ha hb
    obtain rfl := eq_of_next (exec_jf_of_resolve_ok ha hb) h
    rfl
  case returns =>
    rintro v rest rfl hs
    obtain rfl := eq_of_next (exec_ret_of_stack_cons hs) h
    rfl
  case stays =>
    rw [State.isRunning, decide_eq_false_iff_not] at hend
    cases exec_effect h with
    | faults | halts | haltsClean | inFails | inFaults => rfl
    | _ => exact absurd hstate hend

/-- Settles O24: a line's carriage returns are removed before it is queued, so `ConsoleIn()` neither queues nor delivers
one. -/
theorem carriageReturnsAreStripped : Obligations.CarriageReturnsAreStripped := by
  refine ⟨fun cs hblank hend => queuedLine_of_newline hblank hend, fun s t hs h => ?kept,
    fun s t r hs hrun h hpc => ?delivered⟩
  case kept =>
    obtain ⟨-, hstep⟩ | ⟨-, f, -, hstep⟩ | ⟨-, i, -, hstep⟩ := step_cases s <;> rw [hstep] at h
    · obtain rfl := Host.Outcome.next.inj h
      exact hs
    · obtain rfl := Host.Outcome.next.inj h
      exact hs
    · cases exec_effect h with
      | inFaults _ hk | delivers hk => exact fun hmem => consoleIn_no_return hk hs (List.mem_cons_of_mem _ hmem)
      | _ => exact hs
  case delivered =>
    cases exec_effect h with
    | faults _ hin | writesRegister _ hin => exact absurd rfl (hin _)
    | waits | inFails | inFaults => exact absurd hpc (word_ne_add_two s.pc)
    | @delivers _ c rest k hk hc =>
      have hne : c ≠ 13 := fun h13 => consoleIn_no_return hk hs (h13 ▸ List.mem_cons_self ..)
      simpa [Nat.mod_eq_of_lt (show c < 65536 by omega)] using hne

end Proofs
end Sys2Proof
end

section
/-! Memory and words along a step (20_memory.md, 10_state.md R20): every step keeps the canonical form, and keeps every
word of the state at most 32775. -/

namespace Sys2Proof

namespace Machine

section
variable {s t : State} {i : Instr} {a : Operand} {v : Word}

/-- An instruction keeps the canonical form of memory (log 1). -/
theorem exec_memCanonical (hs : s.MemCanonical) (h : exec i s = .next t) : t.MemCanonical := by
  obtain hsame | ⟨x, y, a, v, -, -, -, ha, hwrite⟩ := exec_mem h
  · rwa [State.MemCanonical, hsame]
  · rw [State.MemCanonical, hwrite]
    exact Memory.write_wf hs ha

/-- A source of a well-formed state has a value of at most 32775 (R20, R73). -/
theorem State.WellFormed.resolve_le (hs : s.WellFormed) (ha : resolve s a = .ok v) : v.toNat ≤ 32775 := by
  obtain ⟨-, hregs, -⟩ := hs
  obtain ⟨l, -, rfl⟩ | ⟨r, -, rfl⟩ := resolve_eq_ok.mp ha
  · rw [BitVec.toNat_setWidth_of_le (by decide)]
    omega
  · exact hregs r

/-- So has every word that an instruction moves (R20). -/
theorem WordOrigin.le (h : WordOrigin i s v) (hs : s.WellFormed) : v.toNat ≤ 32775 := by
  obtain hsmall | ⟨a, -, ha⟩ | ⟨x, rfl⟩ | hmem := h
  · omega
  · exact hs.resolve_le ha
  · exact hs.1 x
  · exact hs.2.2 v hmem

/-- An instruction that stands in memory takes a well-formed state to a well-formed state (R20). -/
theorem exec_wellFormed (hcan : s.MemCanonical) (hs : s.WellFormed) (hpc : s.pc.toNat < 32768)
    (h : exec i s = .next t) : t.WellFormed := by
  have ⟨hmem, hregs, hstack⟩ := hs
  refine ⟨fun b => ?cells, fun q => ?registers, ?entries⟩
  case cells =>
    obtain hsame | ⟨x, y, a, v, -, -, hy, -, hwrite⟩ := exec_mem h
    · exact hsame ▸ hmem b
    · rw [hwrite]
      by_cases hb : b = a.toNat
      · rw [hb, Memory.read_write_same hcan]
        exact hs.resolve_le hy
      · rw [Memory.read_write_other v s.mem hb]
        exact hmem b
  case registers =>
    obtain hsame | ⟨r, v, -, horigin, hset⟩ := exec_regs h
    · exact hsame ▸ hregs q
    · rw [hset, RegFile.get_set]
      split
      · exact horigin.le hs
      · exact hregs q
  case entries =>
    obtain hsame | ⟨v, -, horigin, hpush⟩ | ⟨v, -, hpop⟩ := exec_stack h
    · exact hsame ▸ hstack
    · have hv : v.toNat ≤ 32775 := by
        obtain rfl | horigin := horigin
        · have : (s.pc + 2).toNat = s.pc.toNat + 2 := by simp [BitVec.toNat_add]; omega
          omega
        · exact horigin.le hs
      rw [hpush]
      exact List.forall_mem_cons.mpr ⟨hv, hstack⟩
    · exact fun v hv => hstack v (hpop ▸ List.mem_cons_of_mem _ hv)

end

end Machine

namespace Proofs
open Machine

/-- Settles O20: fault entry and an idle step leave memory alone, and every instruction keeps its canonical form. -/
theorem stepKeepsMemoryCanonical : Obligations.StepKeepsMemoryCanonical := by
  intro s t hs h
  obtain ⟨-, hstep⟩ | ⟨-, f, -, hstep⟩ | ⟨-, i, -, hstep⟩ := step_cases s
  · exact eq_of_next hstep h ▸ hs
  · exact eq_of_next hstep h ▸ hs
  · exact exec_memCanonical hs (hstep.symm.trans h)

/-- Settles O21: fault entry and an idle step change no word, and an instruction that was fetched stands in memory, so
that the address `call` pushes is at most 32769. -/
theorem stepKeepsWellFormed : Obligations.StepKeepsWellFormed := by
  intro s t hcan hs h
  obtain ⟨-, hstep⟩ | ⟨-, f, -, hstep⟩ | ⟨-, i, hfetch, hstep⟩ := step_cases s
  · exact eq_of_next hstep h ▸ hs
  · exact eq_of_next hstep h ▸ hs
  · obtain ⟨o, -, hfit, -⟩ := fetchInstr_eq_ok hfetch
    exact exec_wellFormed hcan hs (by omega) (hstep.symm.trans h)

end Proofs
end Sys2Proof
end

section
/-! Which instruction raises which fault (60_exceptions.md R154 to R162). -/

namespace Sys2Proof

namespace Machine

/-- The fault `f` that `in` takes in state `s`: its Console fails, its code point is out of range, or its destination is
no register, in this order (R131, R141). -/
def InFaultCause (d : Operand) (s : State) (f : Raise) : Prop :=
  (∃ k, consoleIn s.inbuf s.console = .failed k ∧ f = .consoleFailure) ∨
  (∃ c rest k, consoleIn s.inbuf s.console = .char c rest k ∧ 32768 ≤ c ∧ f = .inputOutOfRange c) ∨
  ((∀ r, d ≠ .register r) ∧ f = .invalidDestination d.word)

section
variable {i : Instr} {s t : State} {f : Raise}

/-- Every fault of an instruction has a cause of the instruction's own kind. -/
theorem exec_fault_cause (hrun : s.isRunning = true) (h : exec i s = .next t) (hf : t.status.state = .fault) :
    ∃ f : Raise, t.Raised f ∧ ((∃ d, i = .inp d ∧ InFaultCause d s f) ∨ (t = s.raise f ∧ FaultCause i s f)) := by
  by_cases hin : ∃ d, i = .inp d
  · obtain ⟨d, rfl⟩ := hin
    obtain ⟨k, hk, hf⟩ | ⟨c, rest, k, hk, hc, hf⟩ | ⟨-, -, -, -, -, hd, hf⟩ := execIn_fault_cases hrun h hf
    · exact ⟨_, hf, .inl ⟨d, rfl, .inl ⟨k, hk, rfl⟩⟩⟩
    · exact ⟨_, hf, .inl ⟨d, rfl, .inr (.inl ⟨c, rest, k, hk, hc, rfl⟩)⟩⟩
    · exact ⟨_, hf, .inl ⟨d, rfl, .inr (.inr ⟨hd, rfl⟩)⟩⟩
  · obtain ⟨f, rfl, hcause⟩ := exec_fault_cases hrun h hf fun d hd => hin ⟨d, hd⟩
    exact ⟨f, rfl, .inr ⟨rfl, hcause⟩⟩

theorem State.Raised.cause (h : t.Raised f) : t.status.cause = f.code := congrArg Status.cause h

theorem State.Raised.info (h : t.Raised f) : t.status.info = f.info := congrArg Status.info h

/-- A recorded 16-bit word keeps its number in the 32 bits of `STATUS.info` (R152). -/
theorem toNat_word_info (w : Word) : (w.setWidth 32).toNat = w.toNat := BitVec.toNat_setWidth_of_le (by decide)

/-- A recorded code point keeps its number where it fits (R152). -/
theorem toNat_codePointInfo {c : Nat} (h : c < 2 ^ 32) : (codePointInfo c).toNat = c := by
  rw [codePointInfo, if_pos h, BitVec.toNat_ofNat, Nat.mod_eq_of_lt h]

/-- `mod` by 0 never looks at its destination (R112). -/
theorem exec_mod_zero {d a b : Operand} {x : Word} (ha : resolve s a = .ok x) (hb : resolve s b = .ok 0) :
    exec (.mod d a b) s = .next (s.raise .divideByZero) :=
  binaryToDest_of_op_error ha hb (aluMod_zero x)

/-- A Console none of whose writes is left reports a failure (R141). -/
theorem write_of_writesLeft_zero {c : Console} (e : ConsoleEvent) (h : c.writesLeft = some 0) : c.write e = none := by
  rw [Console.write, h]

end

end Machine

namespace Proofs
open Machine

/-- Settles O26: an invalid source is the first cause the model knows, and every other cause has another code. -/
theorem invalidOperandExactlyForSources : Obligations.InvalidOperandExactlyForSources := by
  intro i s t hrun h
  have hfirst : ∀ w, firstInvalid i.sources = some w → t = s.raise (.invalidOperand w) := fun w hw =>
    eq_of_next h (exec_of_firstInvalid hw)
  refine ⟨⟨fun ⟨hf, hcause⟩ => ?onlyIf, fun hmem => ?raises⟩, hfirst⟩
  case onlyIf =>
    obtain ⟨f, hraised, hwhy⟩ := exec_fault_cause hrun h hf
    obtain ⟨w, rfl⟩ := code_eq_2.mp (hraised.cause.symm.trans hcause)
    obtain ⟨d, rfl, hwhy⟩ | ⟨-, ⟨v, hv, -⟩ | ⟨-, hwhy⟩⟩ := hwhy
    · simp [InFaultCause] at hwhy
    · exact firstInvalid_iff_mem.mp ⟨v, hv⟩
    · simp at hwhy
  case raises =>
    obtain ⟨w, hw⟩ := firstInvalid_iff_mem.mpr hmem
    rw [hfirst w hw]
    exact ⟨rfl, rfl⟩

/-- Settles O27: the cause with this code is the last one the model knows, behind every source. -/
theorem invalidDestinationOnlyForNonRegisters : Obligations.InvalidDestinationOnlyForNonRegisters := by
  intro i s t hrun h hf hcause
  obtain ⟨f, hraised, hwhy⟩ := exec_fault_cause hrun h hf
  obtain ⟨w, rfl⟩ := code_eq_3.mp (hraised.cause.symm.trans hcause)
  obtain ⟨d, rfl, hwhy⟩ | ⟨-, hwhy⟩ := hwhy
  · obtain ⟨hd, rfl⟩ : (∀ r, d ≠ .register r) ∧ w = d.word := by simpa [InFaultCause] using hwhy
    exact ⟨d, rfl, hd, hraised, rfl⟩
  · obtain ⟨_, -, hne⟩ | ⟨hnone, hwhy⟩ := hwhy
    · cases hne
    · obtain ⟨d, hdest, hd, rfl, -⟩ : ∃ d, i.destination = some d ∧ (∀ r, d ≠ .register r) ∧ w = d.word ∧ _ := by
        simpa using hwhy
      exact ⟨d, hdest, hd, hraised, hnone⟩

/-- Settles O28: the one cause with this code is the access of rmem and wmem, and then nothing but `STATUS` changes. -/
theorem invalidAddressOnlyByRmemWmem : Obligations.InvalidAddressOnlyByRmemWmem := by
  intro i s t hrun h hf hcause
  obtain ⟨f, hraised, hwhy⟩ := exec_fault_cause hrun h hf
  obtain ⟨w, rfl⟩ := code_eq_4.mp (hraised.cause.symm.trans hcause)
  obtain ⟨d, rfl, hwhy⟩ | ⟨ht, hwhy⟩ := hwhy
  · simp [InFaultCause] at hwhy
  · obtain ⟨-, x, y, a, hi, hx, ha, rfl⟩ : _ ∧ ∃ x y a, (i = .rmem y x ∨ i = .wmem x y) ∧ resolve s x = .ok a ∧
        32768 ≤ a.toNat ∧ w = a := by simpa [FaultCause] using hwhy
    exact ⟨x, y, w, hi, hx, ha, ht⟩

/-- Settles O29: the one cause with this code is `pop` on an empty stack, where `pop` does raise it. -/
theorem stackUnderflowExactlyByPop : Obligations.StackUnderflowExactlyByPop := by
  intro i s t hrun h
  refine ⟨⟨fun ⟨hf, hcause⟩ => ?onlyIf, ?raises⟩, fun hf hcause => ?info⟩
  case onlyIf =>
    obtain ⟨f, hraised, hwhy⟩ := exec_fault_cause hrun h hf
    obtain rfl := code_eq_5.mp (hraised.cause.symm.trans hcause)
    obtain ⟨d, rfl, hwhy⟩ | ⟨-, hwhy⟩ := hwhy
    · simp [InFaultCause] at hwhy
    · obtain ⟨-, hpop, hs⟩ : _ ∧ (∃ d, i = .pop d) ∧ s.stack = [] := by simpa [FaultCause] using hwhy
      exact ⟨hpop, hs⟩
  case raises =>
    rintro ⟨⟨d, rfl⟩, hs⟩
    obtain rfl := eq_of_next (exec_pop_of_stack_nil hs) h
    exact ⟨rfl, rfl⟩
  case info =>
    obtain ⟨f, hraised, -⟩ := exec_fault_cause hrun h hf
    obtain rfl := code_eq_5.mp (hraised.cause.symm.trans hcause)
    exact hraised.info

/-- Settles O30: an `in` behind an out-of-range code point, and an `in` or `out` whose Console fails, raise these causes
by their equations, and nothing else has their codes. -/
theorem consoleFaultsExactlyByInOut : Obligations.ConsoleFaultsExactlyByInOut := by
  intro i s t hrun h
  have hrange : ∀ d c rest k, i = .inp d → consoleIn s.inbuf s.console = .char c rest k → 32768 ≤ c →
      t.Raised (.inputOutOfRange c) := by
    rintro d c rest k rfl hk hc
    rw [exec_in_of_char hk, deliver_of_out_of_range hc, State.commit_error] at h
    exact Host.Outcome.next.inj h ▸ rfl
  refine ⟨⟨fun ⟨hf, hcause⟩ => ?onlyRange, ?range⟩, fun d c rest k hi hk hc hfits => ?codePoint,
    ⟨fun ⟨hf, hcause⟩ => ?onlyFailure, ?failure⟩, fun hf hcause => ?info⟩
  case onlyRange =>
    obtain ⟨f, hraised, hwhy⟩ := exec_fault_cause hrun h hf
    obtain ⟨c, rfl⟩ := code_eq_6.mp (hraised.cause.symm.trans hcause)
    obtain ⟨d, rfl, ⟨_, -, hne⟩ | ⟨c, rest, k, hk, hc, -⟩ | ⟨-, hne⟩⟩ | ⟨-, hwhy⟩ := hwhy
    · cases hne
    · exact ⟨d, c, rest, k, rfl, hk, hc⟩
    · cases hne
    · simp [FaultCause] at hwhy
  case range =>
    rintro ⟨d, c, rest, k, hi, hk, hc⟩
    have hraised := hrange d c rest k hi hk hc
    exact ⟨hraised.state, hraised.cause⟩
  case codePoint => rw [(hrange d c rest k hi hk hc).info, Raise.info, toNat_codePointInfo hfits]
  case onlyFailure =>
    obtain ⟨f, hraised, hwhy⟩ := exec_fault_cause hrun h hf
    obtain rfl := code_eq_7.mp (hraised.cause.symm.trans hcause)
    obtain ⟨d, rfl, ⟨k, hk, -⟩ | ⟨_, _, _, -, -, hne⟩ | ⟨-, hne⟩⟩ | ⟨-, hwhy⟩ := hwhy
    · exact .inl ⟨d, k, rfl, hk⟩
    · cases hne
    · cases hne
    · obtain ⟨-, hout⟩ : _ ∧ ∃ a, i = .out a ∧ ∃ v, resolve s a = .ok v ∧ s.console.writesLeft = some 0 := by
        simpa [FaultCause] using hwhy
      obtain ⟨a, hi, v, ha, hw⟩ := hout
      exact .inr ⟨a, v, hi, ha, hw⟩
  case failure =>
    rintro (⟨d, k, rfl, hk⟩ | ⟨a, v, rfl, ha, hw⟩)
    · obtain rfl := eq_of_next (exec_in_of_failed hk) h
      exact ⟨rfl, rfl⟩
    · obtain rfl := eq_of_next (exec_out_of_write_none ha (write_of_writesLeft_zero _ hw)) h
      exact ⟨rfl, rfl⟩
  case info =>
    obtain ⟨f, hraised, -⟩ := exec_fault_cause hrun h hf
    obtain rfl := code_eq_7.mp (hraised.cause.symm.trans hcause)
    exact hraised.info

/-- Settles O31: the one cause with this code is `mod` by 0, where `mod` does raise it. -/
theorem divideByZeroExactlyByMod : Obligations.DivideByZeroExactlyByMod := by
  intro i s t hrun h
  refine ⟨fun ⟨hf, hcause⟩ => ?onlyIf, ?raises⟩
  case onlyIf =>
    obtain ⟨f, hraised, hwhy⟩ := exec_fault_cause hrun h hf
    obtain rfl := code_eq_8.mp (hraised.cause.symm.trans hcause)
    obtain ⟨d, rfl, hwhy⟩ | ⟨-, hwhy⟩ := hwhy
    · simp [InFaultCause] at hwhy
    · obtain ⟨-, hmod⟩ : _ ∧ ∃ d a b, i = .mod d a b ∧ (∃ x, resolve s a = .ok x) ∧ resolve s b = .ok 0 := by
        simpa [FaultCause] using hwhy
      obtain ⟨d, a, b, hi, ⟨x, hx⟩, hb⟩ := hmod
      exact ⟨d, a, b, x, hi, hx, hb⟩
  case raises =>
    rintro ⟨d, a, b, x, rfl, hx, hb⟩
    obtain rfl := eq_of_next (exec_mod_zero hx hb) h
    exact ⟨rfl, rfl⟩

end Proofs
end Sys2Proof
end

section
/-! The fetched instruction and the memory it stands in: its operands are classified cells (R53, 10_state.md R20), and
what `decode` reads from IP upward is what the fetch unit gives (R71, R75). -/

namespace Sys2Proof

/-- The operands of an assembled instruction, destination first, are its operand words, classified (R50, R52). -/
theorem assemble_operands (o : Opcode) (ws : List Word) :
    (assemble o ws).destination.toList ++ (assemble o ws).sources = (List.range o.operandCount).map (operandAt ws) := by
  cases o <;> rfl

/-- Assembling looks at no more words than the opcode has operands (R50). -/
theorem assemble_take (o : Opcode) (ws : List Word) : assemble o (ws.take o.operandCount) = assemble o ws := by
  cases o <;> simp [assemble, operandAt, Opcode.operandCount]

/-- Words up to 32775 are of class LITERAL or REGISTER (R54, R55). -/
theorem classify_ne_invalid {w v : Word} (h : w.toNat ≤ 32775) : classify w ≠ .invalid v := by
  by_cases hlit : w.toNat ≤ 32767
  · rw [classify_of_literal_range hlit]
    nofun
  · rw [classify_of_register_range (by omega) h]
    nofun

namespace Machine

section
variable {s t : State} {i : Instr} {f : Raise}

/-- Every operand of the fetched instruction is a cell of memory, classified (R53, R71). -/
theorem fetchInstr_operand (h : fetchInstr s = .ok i) {a : Operand} (ha : a ∈ i.destination.toList ++ i.sources) :
    ∃ x, a = classify (s.mem.read x) := by
  obtain ⟨o, -, -, rfl⟩ := fetchInstr_eq_ok h
  rw [assemble_operands] at ha
  obtain ⟨k, hk, rfl⟩ := List.mem_map.mp ha
  exact ⟨s.pc.toNat + 1 + k, by simp [operandAt, List.mem_range.mp hk]⟩

/-- No instruction raises InvalidOpcode, which is raised by decode (R154). -/
theorem exec_cause_ne_invalidOpcode (hrun : s.isRunning = true) (h : exec i s = .next t)
    (hf : t.status.state = .fault) : t.status.cause ≠ 1 := by
  intro hcause
  obtain ⟨f, hraised, hwhy⟩ := exec_fault_cause hrun h hf
  obtain ⟨w, rfl⟩ := code_eq_1.mp (hraised.cause.symm.trans hcause)
  obtain ⟨d, rfl, hwhy⟩ | ⟨-, hwhy⟩ := hwhy
  · simp [InFaultCause] at hwhy
  · simp [FaultCause] at hwhy

/-- The faults of the fetch at a well-formed state (R20, R70 to R72). -/
theorem fetchInstr_error_wellFormed (hs : s.WellFormed) (h : fetchInstr s = .error f) :
    (∃ w : Word, f = .invalidOpcode w ∧ w.toNat ≤ 32775) ∨ ∃ a, f = .invalidAddress a := by
  obtain ⟨-, hf⟩ | ⟨-, -, hf⟩ | ⟨-, -, -, -, hf⟩ := fetchInstr_eq_error h
  · exact .inr ⟨_, hf⟩
  · exact .inl ⟨_, hf, hs.1 _⟩
  · exact .inr ⟨_, hf⟩

/-- Behind IP stand as many words as an instruction can have, or all that memory has (R71). -/
theorem codeWords_eq_cons {w : Word} {ops : List Word} (h : s.codeWords = w :: ops) :
    s.pc.toNat + ops.length < 32768 ∧ w = s.mem.read s.pc.toNat ∧
      ops = (List.range ops.length).map fun k => s.mem.read (s.pc.toNat + 1 + k) := by
  have hlen : min 4 (32768 - s.pc.toNat) = ops.length + 1 := by simpa [State.codeWords] using congrArg List.length h
  rw [State.codeWords, hlen, List.range_succ_eq_map, List.map_cons, List.map_map] at h
  obtain ⟨rfl, hops⟩ := List.cons.inj h
  refine ⟨by omega, rfl, hops.symm.trans (List.map_congr_left fun k _ => ?_)⟩
  simp only [Function.comp_apply, Nat.succ_eq_add_one]
  congr 1
  omega

/-- The fetch unit gives the instruction that the words from IP upward decode to (R75). -/
theorem fetchInstr_of_decode {rest : List Word} (h : decode s.codeWords = .ok (i, rest)) : fetchInstr s = .ok i := by
  obtain ⟨w, o, ops, hwords, ho, hlen, rfl, -⟩ := decode_eq_ok h
  obtain ⟨hfit, rfl, hops⟩ := codeWords_eq_cons hwords
  have htake : (List.range o.operandCount).map (fun k => s.mem.read (s.pc.toNat + 1 + k)) =
      ops.take o.operandCount := by
    rw [hops, ← List.map_take, List.take_range, Nat.min_eq_left hlen]
  rw [fetchInstr_of_operands_fit ho (by omega), htake, assemble_take]

/-- The four words that are placed are the words from IP upward (log 8). -/
theorem codeWords_withFetchWord (hs : s.MemCanonical) (nbits w : Nat) :
    (s.withFetchWord nbits w).codeWords = tableWords nbits w := by
  have hbase : s.fetchBase.toNat + 4 ≤ 32768 := by
    rw [State.fetchBase]
    split
    · assumption
    · decide
  have hpc : (s.withFetchWord nbits w).pc = s.fetchBase := by
    rw [State.withFetchWord]
    split <;> rfl
  have hmem : (s.withFetchWord nbits w).mem = s.mem.writeWords s.fetchBase.toNat (tableWords nbits w) := by
    rw [State.withFetchWord]
    split <;> rfl
  have hlen : min 4 (32768 - s.fetchBase.toNat) = (tableWords nbits w).length := Nat.min_eq_left (by omega)
  rw [State.codeWords, hpc, hmem, hlen]
  refine List.ext_getElem (by simp) fun k _ hk => ?_
  rw [List.getElem_map, List.getElem_range]
  exact Memory.read_writeWords hs hbase hk

/-- A placed instruction finds the machine running (log 8). -/
theorem withFetchWord_isRunning (s : State) (nbits w : Nat) : (s.withFetchWord nbits w).isRunning = true := by
  rw [State.withFetchWord]
  split
  · assumption
  · rfl

/-- A `wmem` into memory leaves the stored word to be read at its address (R41, R121). -/
theorem exec_wmem_pc_mem {x y : Operand} {a v : Word} (hx : resolve s x = .ok a) (hy : resolve s y = .ok v)
    (ha : a.toNat < 32768) (h : exec (.wmem x y) s = .next t) :
    t.pc = s.pc + 3 ∧ t.mem = s.mem.write a.toNat v ∧ t.status = s.status := by
  obtain rfl := eq_of_next (exec_wmem_of_address_in hx hy ha) h
  exact ⟨rfl, rfl, rfl⟩

end

end Machine

namespace Proofs
open Machine

/-- Settles O22: the operands of the fetched instruction are classified words of at most 32775, so none is invalid and a
destination's word is one of them; the opcode word is a cell too. -/
theorem wellFormedFaultsAreLimited : Obligations.WellFormedFaultsAreLimited := by
  intro s t hs hrun h hf
  cases hfetch : fetchInstr s with
  | error f =>
    obtain rfl := eq_of_next (step_of_fetchInstr_error hrun hfetch) h
    obtain ⟨w, rfl, hw⟩ | ⟨a, rfl⟩ := fetchInstr_error_wellFormed hs hfetch
    · exact ⟨(by decide : (1 : BitVec 4) ≠ 2), fun _ => (toNat_word_info w).trans_le hw⟩
    · exact ⟨(by decide : (4 : BitVec 4) ≠ 2), fun hcause => absurd hcause (by simp [Raise.code])⟩
  | ok i =>
    rw [step_of_fetchInstr_ok hrun hfetch] at h
    refine ⟨fun hcause => ?noInvalidOperand, ?recorded⟩
    case noInvalidOperand =>
      obtain ⟨hiff, -⟩ := invalidOperandExactlyForSources i s t hrun h
      obtain ⟨w, hw⟩ := hiff.mp ⟨hf, hcause⟩
      obtain ⟨x, hx⟩ := fetchInstr_operand hfetch (List.mem_append_right _ hw)
      exact classify_ne_invalid (hs.1 x) hx.symm
    case recorded =>
      rintro (hcause | hcause)
      · exact absurd hcause (exec_cause_ne_invalidOpcode hrun h hf)
      · obtain ⟨d, hd, -, hraised, -⟩ := invalidDestinationOnlyForNonRegisters i s t hrun h hf hcause
        obtain ⟨x, rfl⟩ := fetchInstr_operand hfetch (List.mem_append_left _ (Option.mem_toList.mpr hd))
        rw [hraised.info, Raise.info, toNat_word_info, word_classify]
        exact hs.1 x

/-- Settles O13: the fetch unit and `decode` agree, and a step runs what the fetch unit gives. -/
theorem stepRunsTheDecodedInstruction : Obligations.StepRunsTheDecodedInstruction :=
  fun _ _ _ hrun h => ⟨fetchInstr_of_decode h, step_of_fetchInstr_ok hrun (fetchInstr_of_decode h)⟩

/-- Settles O59: the placed words stand from IP upward and the machine runs. -/
theorem placedInstructionRunsNext : Obligations.PlacedInstructionRunsNext := by
  intro s nbits w i hs h
  obtain ⟨rest, hdecode⟩ : ∃ rest, decode (tableWords nbits w) = .ok (i, rest) := by
    rw [decodeTableWord] at h
    split at h
    next j rest hdecode => exact ⟨rest, Option.some.inj h ▸ hdecode⟩
    next => cases h
  rw [← codeWords_withFetchWord hs] at hdecode
  have hrun := withFetchWord_isRunning s nbits w
  exact ⟨hrun, step_of_fetchInstr_ok hrun (fetchInstr_of_decode hdecode)⟩

/-- Settles O52: after the store IP is at the cell just written, and the fetch unit reads what memory now holds. -/
theorem storeIsSeenByTheNextFetch : Obligations.StoreIsSeenByTheNextFetch := by
  intro s t x y a v hs hrun hx hy ha hin h
  obtain ⟨hpc, hmem, hstatus⟩ := exec_wmem_pc_mem hx hy hin h
  rw [← ha] at hpc
  have hrun' : t.isRunning = true := by rwa [State.isRunning, hstatus]
  have hcell : t.mem.read t.pc.toNat = v := by rw [hmem, hpc, Memory.read_write_same hs]
  have hpc' : t.pc.toNat < 32768 := by rwa [hpc]
  refine ⟨memRead_eq_ok.mpr ⟨hpc', hcell.symm⟩, fun hv => ?halts, fun hv => ?faults⟩
  case halts =>
    have hhalt : decodeOpcode (t.mem.read t.pc.toNat) = some .halt := by rw [hcell, hv]; rfl
    exact step_of_halt hrun' (fetchInstr_of_operands_fit hhalt hpc')
  case faults =>
    rw [← hcell]
    exact step_of_fetchInstr_error hrun' (fetchInstr_of_decodeOpcode_none hpc' (decodeOpcode_eq_none.mpr (hcell ▸ hv)))

end Proofs
end Sys2Proof
end

section
/-! The canonical form is unique (20_memory.md, log 1), and the Loader and reset
(70_reset_and_hazards.md R180 to R186). -/

namespace Sys2Proof

namespace Machine

theorem Memory.wfFrom_cons {lo a : Nat} {w : Word} {m : Memory} :
    Memory.wfFrom lo ((a, w) :: m) = true ↔ lo ≤ a ∧ a < 32768 ∧ w ≠ 0 ∧ Memory.wfFrom (a + 1) m = true := by
  simp only [Memory.wfFrom, Bool.and_eq_true, decide_eq_true_eq, and_assoc]
  exact Iff.rfl

/-- The first listed cell of a canonical memory is its first cell that is not 0: no other canonical memory with these
contents starts later. -/
theorem Memory.not_wfFrom_of_read_eq {a lo : Nat} {w : Word} {m n : Memory} (hm : Memory.wfFrom lo ((a, w) :: m) = true)
    (hread : ∀ b, b < 32768 → Memory.read ((a, w) :: m) b = n.read b) : Memory.wfFrom (a + 1) n ≠ true := by
  intro hn
  obtain ⟨-, ha, hw, -⟩ := Memory.wfFrom_cons.mp hm
  have hzero : n.read a = 0 := Memory.read_below hn (by omega)
  rw [← hread a ha, Memory.read_cons, if_pos rfl] at hzero
  exact hw hzero

/-- Two canonical memories with equal cells list the same cells. -/
theorem Memory.eq_of_read_eq {lo : Nat} {m n : Memory} (hm : Memory.wfFrom lo m = true) (hn : Memory.wfFrom lo n = true)
    (hread : ∀ b, b < 32768 → m.read b = n.read b) : m = n := by
  induction m generalizing lo n with
  | nil =>
    cases n with
    | nil => rfl
    | cons c n => exact absurd rfl (Memory.not_wfFrom_of_read_eq hn fun b hb => (hread b hb).symm)
  | cons c m ih =>
    obtain ⟨a, w⟩ := c
    obtain ⟨hlo, ha, hw, hm'⟩ := Memory.wfFrom_cons.mp hm
    cases n with
    | nil => exact absurd rfl (Memory.not_wfFrom_of_read_eq hm hread)
    | cons c' n =>
      obtain ⟨b, v⟩ := c'
      obtain ⟨hlo', hb, hv, hn'⟩ := Memory.wfFrom_cons.mp hn
      obtain hlt | rfl | hgt : a < b ∨ a = b ∨ b < a := by omega
      · exact absurd (Memory.wfFrom_cons.mpr ⟨hlt, hb, hv, hn'⟩) (Memory.not_wfFrom_of_read_eq hm hread)
      · have hwv : w = v := by simpa [Memory.read_cons] using hread a ha
        have htail : ∀ b, b < 32768 → Memory.read m b = Memory.read n b := by
          intro b hb
          by_cases hba : b = a
          · rw [hba, Memory.read_below hm' (by omega), Memory.read_below hn' (by omega)]
          · simpa [Memory.read_cons, hba] using hread b hb
        rw [hwv, ih hm' hn' htail]
      · exact absurd (Memory.wfFrom_cons.mpr ⟨hgt, ha, hw, hm'⟩)
          (Memory.not_wfFrom_of_read_eq hn fun b hb => (hread b hb).symm)

/-! ### The Loader -/

/-- Two bytes to a word, and none left over (R31). -/
theorem pairBytes_length (bytes : List Byte) : ∀ {ws : List Word}, pairBytes bytes = some ws →
    bytes.length = 2 * ws.length := by
  induction bytes using pairBytes.induct with
  | case1 => rintro _ ⟨⟩; rfl
  | case2 => rintro _ ⟨⟩
  | case3 lo hi rest ih =>
    intro ws h
    obtain ⟨tail, htail, rfl⟩ := Option.map_eq_some_iff.mp h
    simp only [List.length_cons, ih htail]
    omega

/-- Word `k` is byte pair `k`, the low byte first (R31). -/
theorem pairBytes_getElem? (bytes : List Byte) : ∀ {ws : List Word} {k : Nat} {lo hi : Byte},
    pairBytes bytes = some ws → bytes[2 * k]? = some lo → bytes[2 * k + 1]? = some hi →
    ws[k]? = some (BitVec.ofNat 16 (lo.toNat + 256 * hi.toNat)) := by
  induction bytes using pairBytes.induct with
  | case1 => simp
  | case2 => rintro _ _ _ _ ⟨⟩
  | case3 b c rest ih =>
    intro ws k lo hi h hlo hhi
    obtain ⟨tail, htail, rfl⟩ := Option.map_eq_some_iff.mp h
    cases k with
    | zero =>
      obtain ⟨rfl, rfl⟩ : b = lo ∧ c = hi := by simpa using And.intro hlo hhi
      rfl
    | succ k =>
      have hk : 2 * (k + 1) = 2 * k + 1 + 1 := by omega
      rw [hk] at hlo hhi
      rw [List.getElem?_cons_succ]
      exact ih htail hlo hhi

/-- The word of two bytes is their number (R31). -/
theorem toNat_byte_pair (lo hi : Byte) :
    (BitVec.ofNat 16 (lo.toNat + 256 * hi.toNat)).toNat = lo.toNat + 256 * hi.toNat := by
  rw [BitVec.toNat_ofNat, Nat.mod_eq_of_lt]
  omega

/-- What the Loader accepts, and the image it makes (R186). -/
theorem loadImage_eq_ok {bytes : List Byte} {image : List Word} :
    loadImage bytes = .ok image ↔ ∃ ws, pairBytes bytes = some ws ∧ (∀ w ∈ ws, w.toNat ≤ 32775) ∧ ws.length ≤ 32768 ∧
      image = padImage ws := by
  cases hpair : pairBytes bytes with
  | none => simp [loadImage, hpair]
  | some ws =>
    cases hfind : ws.find? fun w => decide (32775 < w.toNat) with
    | some w =>
      have hmem : w ∈ ws := List.mem_of_find?_eq_some hfind
      have hbig : 32775 < w.toNat := by simpa using List.find?_some hfind
      have hbad : ¬ ∀ w ∈ ws, w.toNat ≤ 32775 := fun hall => absurd (hall w hmem) (by omega)
      simp [loadImage, hpair, hfind, hbad]
    | none =>
      have hgood : ∀ w ∈ ws, w.toNat ≤ 32775 := by simpa using hfind
      by_cases hlen : ws.length ≤ 32768
      · simp [loadImage, hpair, hfind, hlen, eq_true hgood, Nat.not_lt.mpr hlen, eq_comm]
      · simp [loadImage, hpair, hfind, hlen, Nat.lt_of_not_le hlen]

@[simp] theorem padImage_length {ws : List Word} (h : ws.length ≤ 32768) : (padImage ws).length = 32768 := by
  simp [padImage, h]

section
variable {ws : List Word}

/-- Cell `k` at reset is image word `k` (R180). -/
theorem read_boot_padImage (h : ws.length ≤ 32768) {k : Nat} (hk : k < (padImage ws).length) :
    (State.boot (padImage ws)).mem.read k = (padImage ws)[k] := by
  have hread := Memory.read_ofWords (a := 0) (by simp [h]) hk
  rwa [Nat.zero_add] at hread

/-- The cells of the program hold its words (R180). -/
theorem read_boot_of_getElem? (h : ws.length ≤ 32768) {k : Nat} {w : Word} (hk : ws[k]? = some w) :
    (State.boot (padImage ws)).mem.read k = w := by
  obtain ⟨hlt, rfl⟩ := List.getElem?_eq_some_iff.mp hk
  rw [read_boot_padImage h (by simpa [h] using hlt.trans_le h)]
  exact List.getElem_append_left hlt

/-- The memory at reset is canonical. -/
theorem boot_memCanonical (h : ws.length ≤ 32768) : (State.boot (padImage ws)).MemCanonical :=
  Memory.ofWords_wf (padImage_length h).le

/-- The cells behind the program are 0 (R180). -/
theorem read_boot_of_length_le (h : ws.length ≤ 32768) {k : Nat} (hk : ws.length ≤ k) :
    (State.boot (padImage ws)).mem.read k = 0 := by
  by_cases hin : k < 32768
  · rw [read_boot_padImage h (by simpa [h] using hin)]
    simp [padImage, List.getElem_append_right hk]
  · exact Memory.read_above (boot_memCanonical h) (Nat.le_of_not_lt hin)

theorem reset_status_consistent : State.reset.status.Consistent := ⟨fun _ => ⟨rfl, rfl⟩, nofun⟩

/-- A machine whose registers are at reset and whose stack is empty is well formed when its memory is (R20). -/
theorem reset_setMem_wellFormed {m : Memory} (hm : ∀ a, (m.read a).toNat ≤ 32775) :
    (State.reset.setMem m).WellFormed := by
  refine ⟨hm, fun r => ?_, nofun⟩
  rw [State.setMem_regs, State.reset, RegFile.get_reset]
  decide

/-- A run starts well formed (R20, R186). -/
theorem boot_wellFormed (h : ws.length ≤ 32768) (hws : ∀ w ∈ ws, w.toNat ≤ 32775) :
    (State.boot (padImage ws)).WellFormed := by
  refine reset_setMem_wellFormed fun k => ?_
  change ((State.boot (padImage ws)).mem.read k).toNat ≤ 32775
  by_cases hk : k < ws.length
  · rw [read_boot_of_getElem? h (List.getElem?_eq_getElem hk)]
    exact hws _ (List.getElem_mem hk)
  · rw [read_boot_of_length_le h (Nat.le_of_not_lt hk)]
    decide

end

end Machine

namespace Proofs
open Machine

/-- Settles O9, by the lists: the first cells listed are the first cells that are not 0. -/
theorem canonicalMemoryIsUnique : Obligations.CanonicalMemoryIsUnique :=
  fun _ _ hm hn hread => Memory.eq_of_read_eq hm hn hread

/-- Settles O10: the fields of the reset state. -/
theorem resetState : Obligations.ResetState :=
  ⟨RegFile.get_reset, rfl, Memory.read_nil, rfl, rfl, rfl, rfl, rfl⟩

/-- Settles O25: the memory of the empty program lists no cell, and no field holds a word other than 0. -/
theorem resetMeetsInvariants : Obligations.ResetMeetsInvariants :=
  ⟨rfl, reset_setMem_wellFormed (m := []) fun a => by rw [Memory.read_nil]; decide, reset_status_consistent,
    List.not_mem_nil⟩

/-- Settles O11, by the words the file pairs up to: cell `k` is the file's word `k` or a zero put behind them. -/
theorem bootHoldsTheImage : Obligations.BootHoldsTheImage := by
  intro bytes image h
  obtain ⟨ws, hpair, -, hlen, rfl⟩ := loadImage_eq_ok.mp h
  refine ⟨padImage_length hlen, fun k hk => read_boot_padImage hlen hk, fun k lo hi hlo hhi => ?_, fun k hk => ?_⟩
  · rw [read_boot_of_getElem? hlen (pairBytes_getElem? bytes hpair hlo hhi), toNat_byte_pair]
  · have hbytes := pairBytes_length bytes hpair
    exact read_boot_of_length_le hlen (by omega)

/-- Settles O12: an odd file pairs up to no words; of the words an even one pairs up to, the Loader's two checks are
what is asked, and they are what makes the state at reset well formed. -/
theorem loaderAcceptsExactlyValidFiles : Obligations.LoaderAcceptsExactlyValidFiles := by
  intro bytes
  refine ⟨fun hodd => ?odd, fun ws hpair => ?accepted, fun image h => ?launch⟩
  case odd =>
    cases hpair : pairBytes bytes with
    | none => rw [loadImage, hpair]
    | some ws =>
      have hbytes := pairBytes_length bytes hpair
      omega
  case accepted =>
    simp only [loadImage_eq_ok, hpair, Option.some.injEq, exists_eq_left']
    exact ⟨fun ⟨_, hws, hlen, _⟩ => ⟨hws, hlen⟩, fun ⟨hws, hlen⟩ => ⟨_, hws, hlen, rfl⟩⟩
  case launch =>
    obtain ⟨ws, -, hws, hlen, rfl⟩ := loadImage_eq_ok.mp h
    exact ⟨boot_wellFormed hlen hws, boot_memCanonical hlen, reset_status_consistent⟩

/-- Settles O5: the classifier and the opcode table, run on the words. -/
theorem sampleWordsDecode : Obligations.SampleWordsDecode := by
  unfold Obligations.SampleWordsDecode
  decide

/-- Settles O19: fault entry records the code and the info of the cause, and a word or a code point that fits keeps its
number in 32 bits. -/
theorem faultCodesAndInfo : Obligations.FaultCodesAndInfo := by
  intro s w c hc
  have hword : BitVec.ofNat 32 w.toNat = w.setWidth 32 := BitVec.ofNat_toNat ..
  have hcode : codePointInfo c = BitVec.ofNat 32 c := if_pos hc
  rw [hword, ← hcode]
  exact ⟨rfl, rfl, rfl, rfl, rfl, rfl, rfl, rfl⟩

end Proofs
end Sys2Proof
end

section
/-! The results of the unit are below 32768, and reducing the sources first shows only in the remainder
(45_alu.md R116, decision D12). -/

namespace Sys2Proof

namespace Machine

@[simp] theorem toNat_reduce (n : Nat) : (reduce n).toNat = n % 32768 := by
  rw [reduce, BitVec.toNat_ofNat]
  omega

/-- Reducing both words of a bitwise `and` first changes nothing in bits 14 to 0 (R113). -/
theorem and_mod_32768 (x y : Nat) : (x &&& y) % 32768 = (x % 32768 &&& y % 32768) % 32768 := by
  have hmod : ∀ a b : Nat, (a &&& b) % 2 ^ 15 = a % 2 ^ 15 &&& b % 2 ^ 15 := fun _ _ => Nat.and_mod_two_pow
  rw [show 32768 = 2 ^ 15 from rfl, hmod, hmod, Nat.mod_mod, Nat.mod_mod]

/-- Nor of a bitwise `or` (R114). -/
theorem or_mod_32768 (x y : Nat) : (x ||| y) % 32768 = (x % 32768 ||| y % 32768) % 32768 := by
  have hmod : ∀ a b : Nat, (a ||| b) % 2 ^ 15 = a % 2 ^ 15 ||| b % 2 ^ 15 := fun _ _ => Nat.or_mod_two_pow
  rw [show 32768 = 2 ^ 15 from rfl, hmod, hmod, Nat.mod_mod, Nat.mod_mod]

/-- What an instruction of the unit leaves in its destination is a result, or the machine has stopped (R116). -/
theorem exec_unit_result_le {i : Instr} {s t : State} {r : Reg} (h : exec i s = .next t) (ht : t.isRunning = true)
    (hdest : i.destination = some (.register r))
    (hunit : i.opcode ∈ [Opcode.eq, .gt, .add, .mult, .mod, .and, .or, .not]) : (t.regs.get r).toNat ≤ 32767 := by
  rw [State.isRunning_iff] at ht
  cases exec_effect h with
  | writesRegister hdest' _ _ hle =>
    obtain rfl := Operand.register.inj (Option.some.inj (hdest'.symm.trans hdest))
    rw [State.advance_regs, State.setReg_regs, RegFile.get_set_same]
    exact hle (fun hset => by simp [hset] at hunit) fun hrmem => by simp [hrmem] at hunit
  | faults => cases ht
  | _ => simp [Instr.opcode] at hunit

end Machine

namespace Proofs
open Machine

/-- Settles O49: the results are reduced, addition, multiplication and the bitwise operations commute with the
reduction, and the remainder of 32768 by 32767 does not. -/
theorem aluResultsAreReduced : Obligations.AluResultsAreReduced := by
  refine ⟨fun i s t r _ h ht hdest hunit => exec_unit_result_le h ht hdest hunit,
    fun a b => ⟨?sum, ?product, ?conjunction, ?disjunction, ?complement⟩, 32768, 32767, by decide⟩
  case sum => rw [aluAdd_eq, aluAdd_eq, toNat_reduce, toNat_reduce, ← Nat.add_mod]
  case product => rw [aluMult_eq, aluMult_eq, toNat_reduce, toNat_reduce, ← Nat.mul_mod]
  case conjunction => rw [aluAnd_eq, aluAnd_eq, toNat_reduce, toNat_reduce, ← and_mod_32768]
  case disjunction => rw [aluOr_eq, aluOr_eq, toNat_reduce, toNat_reduce, ← or_mod_32768]
  case complement => rw [aluNot_eq, aluNot_eq, toNat_reduce, Nat.mod_mod]

end Proofs
end Sys2Proof
end

section
/-! The refill of an empty buffer by an `in` (48_io.md R134 to R141): what comes behind the blank lines decides. -/

namespace Sys2Proof

namespace Machine

section
variable {c : Console} {cs xs : List Nat} {rest : List LineAnswer} {x : Nat}

/-- A line that is awaited needs no second prompt (R135). -/
theorem requestLine_of_awaiting (h : c.awaiting = true) : c.requestLine = some c := by
  rw [Console.requestLine, if_pos h]

/-- The awaited line has not arrived (R136). -/
theorem refill_nil_of_awaiting (h : c.awaiting = true) : refill [] c = .waiting { c with answers := [] } := by
  rw [refill, requestLine_of_awaiting h]

/-- The read of the awaited line fails (R141). -/
theorem refill_failure_of_awaiting (h : c.awaiting = true) :
    refill (.failure :: rest) c = .failed { c with answers := rest, awaiting := false } := by
  rw [refill, requestLine_of_awaiting h]

/-- The awaited line arrives and queues something (R135). -/
theorem refill_line_of_awaiting (h : c.awaiting = true) (hcs : queuedLine cs = x :: xs) :
    refill (.line cs :: rest) c = .char x xs { c with answers := rest, awaiting := false } := by
  rw [refill, requestLine_of_awaiting h]
  simp only [hcs]

theorem isBlankAnswer_eq_true {b : LineAnswer} (h : Spec.isBlankAnswer b = true) :
    ∃ cs, b = .line cs ∧ isBlankLine cs = true := by
  cases b with
  | line cs => exact ⟨cs, rfl, h⟩
  | failure => cases h

end

/-- An empty buffer is refilled from the Console's answers (R134). -/
theorem consoleIn_of_inbuf_nil {s : State} (hs : s.inbuf = []) :
    consoleIn s.inbuf s.console = refill s.console.answers s.console := by
  rw [hs, consoleIn]

section
variable {s : State} {blanks as : List LineAnswer}
  (hs : s.inbuf = []) (hblanks : ∀ b ∈ blanks, Spec.isBlankAnswer b = true) (has : s.console.answers = blanks ++ as)
include hs hblanks has

/-- Behind blank lines whose prompts can be written, `ConsoleIn()` on an empty buffer is the refill from the answers
behind them, at a Console that has written the prompts (R134, R135). -/
theorem consoleIn_blank_lines
    (hw : ∀ n, s.console.writesLeft = some n → Spec.promptsBefore s.console.awaiting blanks.length ≤ n) :
    ∃ c : Console, consoleIn s.inbuf s.console = refill as c ∧ c.awaiting = true ∧
      c.writesLeft = s.console.writesLeft.map (· - Spec.promptsBefore s.console.awaiting blanks.length) ∧
      c.transcript = s.console.transcript ++
        List.replicate (Spec.promptsBefore s.console.awaiting blanks.length) .prompt := by
  rw [consoleIn_of_inbuf_nil hs, has]
  exact refill_blank_lines blanks as (fun b hb => isBlankAnswer_eq_true (hblanks b hb)) s.console _ rfl hw

/-- With too few writes left for the prompts, `ConsoleIn()` on an empty buffer fails (R141). -/
theorem consoleIn_prompt_fails {n : Nat} (hw : s.console.writesLeft = some n)
    (hn : n < Spec.promptsBefore s.console.awaiting blanks.length) :
    ∃ k, consoleIn s.inbuf s.console = .failed k := by
  rw [consoleIn_of_inbuf_nil hs, has]
  exact refill_prompt_fails blanks as (fun b hb => isBlankAnswer_eq_true (hblanks b hb)) s.console n hw hn

end

section
variable {s : State} {d : Operand} {k : Console}

/-- What an `in` on an empty buffer leaves when its Console fails: the core and the OUT words are as before (R141,
R153). -/
theorem exec_in_fails (hs : s.inbuf = []) (hk : consoleIn s.inbuf s.console = .failed k) :
    ∃ t, exec (.inp d) s = .next t ∧ t.Raised .consoleFailure ∧ s.SameCore t ∧ t.inbuf = [] ∧ t.console = k ∧
      t.console.outWords = s.console.outWords :=
  ⟨_, exec_in_of_failed hk, rfl, ⟨rfl, rfl, rfl, rfl⟩, hs, rfl, consoleIn_outWords hk⟩

/-- The Console is no part of what is fetched (R70, R71). -/
theorem fetchInstr_setConsole (s : State) (k : Console) : fetchInstr (s.setConsole k) = fetchInstr s := rfl

/-- An `in` that waits for an awaited line with no answer to come stays as it is (R136). -/
theorem step_setConsole_of_waiting (hrun : s.Runs (.inp d)) (hs : s.inbuf = []) (hawaiting : k.awaiting = true)
    (hanswers : k.answers = []) : step (s.setConsole k) = .next (s.setConsole k) := by
  have hk : consoleIn (s.setConsole k).inbuf (s.setConsole k).console = .waiting k := by
    rw [consoleIn_of_inbuf_nil (s := s.setConsole k) hs, State.setConsole_console, hanswers,
      refill_nil_of_awaiting hawaiting, ← hanswers]
  obtain ⟨hrunning, hfetch⟩ := hrun
  rw [step_of_fetchInstr_ok (s := s.setConsole k) hrunning
    ((fetchInstr_setConsole s k).trans hfetch), exec_in_of_waiting hk]
  rfl

end

end Machine

namespace Proofs
open Machine

/-- Settles O57: the refill drops the blank lines and comes to the line behind them, or to the line that was awaited; of
what that line queues, `in` delivers the first character. -/
theorem refillSkipsBlankLines : Obligations.RefillSkipsBlankLines := by
  constructor
  · rintro s r blanks rest cs c q p hs has rfl hw hblanks hline hend hqueue hc
    rw [← queuedLine_of_newline hline hend] at hqueue
    obtain ⟨k, hk, hawaiting, hwrites, htranscript⟩ := consoleIn_blank_lines hs hblanks has hw
    rw [refill_line_of_awaiting hawaiting hqueue] at hk
    obtain ⟨-, -, -, -, -, -, hdelivers⟩ := inReadsOneCharacter s (.register r)
    exact ⟨_, hdelivers c q _ r hk hc rfl, rfl, rfl, rfl, rfl, rfl, rfl, rfl, rfl, hwrites, htranscript⟩
  · intro s r cs c q hs has hawaiting hline hend hqueue hc
    rw [← queuedLine_of_newline hline hend] at hqueue
    have hanswers : (s.supply (.line cs)).console.answers = [.line cs] := by
      rw [State.supply, State.setConsole_console, has, List.nil_append]
    have hk : consoleIn (s.supply (.line cs)).inbuf (s.supply (.line cs)).console =
        .char c q { s.console with answers := [], awaiting := false } := by
      rw [consoleIn_of_inbuf_nil (s := s.supply (.line cs)) hs, hanswers]
      exact refill_line_of_awaiting hawaiting hqueue
    obtain ⟨-, -, -, -, -, -, hdelivers⟩ := inReadsOneCharacter (s.supply (.line cs)) (.register r)
    exact ⟨_, hdelivers c q _ r hk hc rfl, rfl, rfl, rfl, rfl, rfl, rfl⟩

/-- Settles O58: behind the blank lines there is no answer, so the `in` waits, at a Console that awaits the line and so
does not prompt again. -/
theorem inWaitsWithoutInput : Obligations.InWaitsWithoutInput := by
  intro s t d n hruns hs hw hblanks h
  obtain ⟨c, hk, hawaiting, -, htranscript⟩ := consoleIn_blank_lines hs hblanks (List.append_nil _).symm hw
  rw [refill_nil_of_awaiting hawaiting] at hk
  have ⟨hrun, hfetch⟩ := hruns
  rw [step_of_fetchInstr_ok hrun hfetch, exec_in_of_waiting hk] at h
  obtain rfl := Host.Outcome.next.inj h
  exact ⟨hrun, ⟨rfl, rfl, rfl, rfl⟩, hs, rfl, hawaiting, htranscript, consoleIn_outWords hk,
    run_of_step_self (step_setConsole_of_waiting (k := { c with answers := [] }) hruns hs hawaiting rfl) n⟩

/-- Settles O60: behind the blank lines the failing answer is met, or the prompts run out before. -/
theorem inFailsWhenTheConsoleFails : Obligations.InFailsWhenTheConsoleFails := by
  refine fun s d blanks rest hs hblanks => ⟨fun has hw => ?answer, fun n has hw hn => ?prompt⟩
  case answer =>
    obtain ⟨c, hk, hawaiting, -, -⟩ := consoleIn_blank_lines hs hblanks has hw
    rw [refill_failure_of_awaiting hawaiting] at hk
    obtain ⟨t, ht, hraised, hcore, hinbuf, hconsole, hout⟩ := exec_in_fails (d := d) hs hk
    exact ⟨t, ht, hraised, hcore, hinbuf, by rw [hconsole], hout⟩
  case prompt =>
    obtain ⟨k, hk⟩ := consoleIn_prompt_fails hs hblanks has hw hn
    obtain ⟨t, ht, hraised, hcore, hinbuf, -, hout⟩ := exec_in_fails (d := d) hs hk
    exact ⟨t, ht, hraised, hcore, hinbuf, hout⟩

end Proofs
end Sys2Proof
end
